-- ==== Sys2Proof/Word.lean ====
section
/-!
DEFINITION. The bit-vector types of the core (spec/00_scope.md R9, R11; spec/10_state.md R15).
-/

namespace Sys2Proof

/-- One byte of a command or response frame (30_encoding.md R49). -/
abbrev Byte := BitVec 8

/-- A half of a block, a subkey, or any value inside MIX (00_scope.md R9: `HALF_W = SK_W = 32`). -/
abbrev Word := BitVec 32

/-- A stored table cell, or one of the eight digits of a word (00_scope.md R9: `CELL_W = 4`). -/
abbrev Nibble := BitVec 4

/-- A block (00_scope.md R9: `BLOCK_W = 64`). -/
abbrev Block := BitVec 64

/-- A master key (00_scope.md R9: `KEY_W = 256`). -/
abbrev Key := BitVec 256

end Sys2Proof
end

