-- ==== Sys2Proof/Syntax.lean ====
section
/-!
DEFINITION. The five commands, the responses and errors, the traversal modes and what a host can do to the core.
-/

namespace Sys2Proof

/-- The abstract commands of 30_encoding.md R48, one per row of the opcode table (R47). Operands are wider than the
legal ones, because the core itself must reject what is out of range. -/
inductive Instr where
  /-- Load the master key and derive the subkeys (40_key_schedule.md R67). -/
  | ldkey (key : Nat)
  /-- Load the substitution table: rows of cells, row 0 and column 0 first (44 R111). -/
  | ldsbox (tbl : List (List Nat))
  /-- Encrypt one block (42_encrypt.md R91). -/
  | enc (block : Nat)
  /-- Decrypt one block (43_decrypt.md R101). -/
  | dec (block : Nat)
  /-- Read the eight derived subkeys (40_key_schedule.md R68). -/
  | rdsk
  deriving DecidableEq, Repr

/-- The five errors of 60_exceptions.md R120. -/
inductive CommandError where
  /-- LDSBOX: the table is not exactly 8 rows of 16 cells (R122). -/
  | shapeError
  /-- A cell above 15, a key above 2^256 - 1 or a block above 2^64 - 1 (R123). -/
  | rangeError
  /-- ENC, DEC, RDSK: key or table not loaded since reset (R124). -/
  | notReady
  /-- The decoder: a reserved opcode (R125). -/
  | badCommand
  /-- The decoder: an empty frame, or one of the wrong length for its opcode (R125). -/
  | frameError
  deriving DecidableEq, Repr

/-- The responses of 30_encoding.md R48. -/
inductive Response where
  /-- Completed, no data (LDKEY, LDSBOX). -/
  | ok
  /-- Completed with a 64-bit result (ENC, DEC). -/
  | ok64 (v : Block)
  /-- Completed with the eight subkeys, `K[0]` first (RDSK). -/
  | ok8x32 (ks : Vector Word 8)
  /-- Ended by an error, no data. -/
  | err (e : CommandError)
  deriving DecidableEq, Repr

/-- `MODE`, the traversal in use (10_state.md R22): 0 while an ENC executes, 1 while a DEC executes. -/
inductive Mode where
  /-- `MODE = 0`. -/
  | enc
  /-- `MODE = 1`. -/
  | dec
  deriving DecidableEq, Repr, Inhabited

/-- What can happen to the core from outside (70_reset_and_hazards.md R152), as the model's input list holds it. The
list is in the order in which the actions take effect (20_memory.md R40, R42).
DESIGN CHOICE (log 7, 8, 9; safe): the transport is an open parameter of the spec. -/
inductive HostAction where
  /-- One command frame, executed as one atomic transition (20_memory.md R40). -/
  | frame (bytes : List Byte)
  /-- One command frame, of which an ENC or DEC is executed one transition a step (42_encrypt.md R88). -/
  | stepped (bytes : List Byte)
  /-- The reset event (70_reset_and_hazards.md R141). -/
  | reset
  /-- A reset that arrives after the frame `inFlight` was accepted and before its response, with the frames `held`
  waiting behind it (70_reset_and_hazards.md R142). -/
  | resetDuring (inFlight : List Byte) (held : List (List Byte))
  deriving DecidableEq, Repr

end Sys2Proof
end

