-- ==== Sys2Proof/WellFormed.lean ====
section
/-!
DEFINITION. Which commands a frame can carry (30_encoding.md R48, last sentences). This is not the range check of a
command: an over-wide key that a frame can carry is well-formed, and LDKEY rejects it.
-/

namespace Sys2Proof

/-- An integer operand a format I frame can carry: below `2^2040`, at most 255 value bytes (30_encoding.md R48, R51). -/
abbrev intCarried (v : Nat) : Prop := v < 256 ^ 255

/-- A table operand a format T frame can carry: at most 255 rows, at most 255 cells a row, every cell a byte
(30_encoding.md R48, R52). -/
abbrev tableCarried (tbl : List (List Nat)) : Prop :=
  tbl.length ≤ 255 ∧ ∀ row ∈ tbl, row.length ≤ 255 ∧ ∀ c ∈ row, c < 256

/-- A command that some frame carries. -/
def WellFormed (i : Instr) : Prop :=
  match i with
  | .ldkey key => intCarried key
  | .ldsbox tbl => tableCarried tbl
  | .enc block => intCarried block
  | .dec block => intCarried block
  | .rdsk => True

/-- `WellFormed` as a test. -/
def wellFormed (i : Instr) : Bool :=
  match i with
  | .ldkey key => decide (intCarried key)
  | .ldsbox tbl => decide (tableCarried tbl)
  | .enc block => decide (intCarried block)
  | .dec block => decide (intCarried block)
  | .rdsk => true

end Sys2Proof
end

