-- ==== Sys2Proof/Decode.lean ====
section
/-!
DEFINITION. Command frames (30_encoding.md R49 to R59): the decoder, total on any byte sequence, and the encoder of
the canonical frames, written from the same tables.
-/

namespace Sys2Proof

/-! ### Little-endian integers (20_memory.md R37) -/

/-- The value of a byte sequence, least significant byte first: the sum over `j` of `f[j] * 256^j`
(30_encoding.md R51). -/
def leValue : List Byte → Nat
  | [] => 0
  | b :: bs => b.toNat + 256 * leValue bs

/-- The `n` low bytes of `v`, least significant first. -/
def leBytes : Nat → Nat → List Byte
  | 0, _ => []
  | n + 1, v => BitVec.ofNat 8 v :: leBytes n (v / 256)

/-! ### The opcode map (30_encoding.md R55) -/

/-- Opcode of LDKEY. -/
def opLdkey : Byte := 0x01
/-- Opcode of LDSBOX. -/
def opLdsbox : Byte := 0x02
/-- Opcode of ENC. -/
def opEnc : Byte := 0x03
/-- Opcode of DEC. -/
def opDec : Byte := 0x04
/-- Opcode of RDSK. -/
def opRdsk : Byte := 0x05

/-- The opcode of a command. -/
def opcode (i : Instr) : Byte :=
  match i with
  | .ldkey _ => opLdkey
  | .ldsbox _ => opLdsbox
  | .enc _ => opEnc
  | .dec _ => opDec
  | .rdsk => opRdsk

/-! ### The decoder -/

/-- Format I after the opcode: `LEN`, then exactly `LEN` value bytes (30_encoding.md R51). Only the value counts. -/
def parseInteger : List Byte → Except CommandError Nat
  | [] => .error .frameError
  | len :: val => if val.length = len.toNat then .ok (leValue val) else .error .frameError

/-- `n` rows, each a count byte and that many cells, and nothing after the last (30_encoding.md R52). -/
def parseRows : Nat → List Byte → Except CommandError (List (List Nat))
  | 0, [] => .ok []
  | 0, _ :: _ => .error .frameError
  | _ + 1, [] => .error .frameError
  | n + 1, ncols :: rest =>
    if rest.length < ncols.toNat then .error .frameError
    else
      match parseRows n (rest.drop ncols.toNat) with
      | .ok rows => .ok ((rest.take ncols.toNat).map BitVec.toNat :: rows)
      | .error e => .error e

/-- Format T after the opcode: `NROWS`, then the rows (30_encoding.md R52). -/
def parseTable : List Byte → Except CommandError (List (List Nat))
  | [] => .error .frameError
  | nrows :: rest => parseRows nrows.toNat rest

/-- Format N after the opcode: nothing (30_encoding.md R50). -/
def parseNone : List Byte → Except CommandError Unit
  | [] => .ok ()
  | _ :: _ => .error .frameError

/-- The command a frame carries, or the decode error, in the order of 30_encoding.md R57: an empty frame, then a
reserved opcode, then a length that its format does not allow (R56). -/
def decode : List Byte → Except CommandError Instr
  | [] => .error .frameError
  | op :: body =>
    if op = opLdkey then (parseInteger body).map .ldkey
    else if op = opLdsbox then (parseTable body).map .ldsbox
    else if op = opEnc then (parseInteger body).map .enc
    else if op = opDec then (parseInteger body).map .dec
    else if op = opRdsk then (parseNone body).map fun _ => .rdsk
    else .error .badCommand

/-! ### The encoder: canonical frames (30_encoding.md R59) -/

/-- `LEN` of the canonical frame: the nominal width in bytes for a value that fits it, otherwise the least number of
bytes that holds the value (R59). -/
def intLength (nominal v : Nat) : Nat :=
  if v < 256 ^ nominal then nominal else Nat.log2 v / 8 + 1

/-- The bytes of a format I frame after the opcode. -/
def encodeInteger (nominal v : Nat) : List Byte :=
  BitVec.ofNat 8 (intLength nominal v) :: leBytes (intLength nominal v) v

/-- The bytes of one row of a format T frame. -/
def encodeRow (row : List Nat) : List Byte :=
  BitVec.ofNat 8 row.length :: row.map (BitVec.ofNat 8)

/-- The bytes of a format T frame after the opcode. -/
def encodeTable (tbl : List (List Nat)) : List Byte :=
  BitVec.ofNat 8 tbl.length :: tbl.flatMap encodeRow

/-- The canonical frame of a command (R59): `LEN` 32 for a key, 8 for a block. DESIGN CHOICE (log 23): R59 gives no frame
to a command that no frame carries (not `WellFormed`); what stands here for one has `LEN`, the counts and the cells cut
to a byte, and nothing may use it. -/
def encode (i : Instr) : List Byte :=
  match i with
  | .ldkey key => opLdkey :: encodeInteger 32 key
  | .ldsbox tbl => opLdsbox :: encodeTable tbl
  | .enc block => opEnc :: encodeInteger 8 block
  | .dec block => opDec :: encodeInteger 8 block
  | .rdsk => [opRdsk]

/-- The length of the canonical frame (30_encoding.md R58: 1, `2 + LEN`, or `2 + NROWS + sum NCOLS[r]`). -/
def frameLength (i : Instr) : Nat :=
  match i with
  | .ldkey key => 2 + intLength 32 key
  | .ldsbox tbl => 2 + tbl.length + (tbl.map List.length).sum
  | .enc block => 2 + intLength 8 block
  | .dec block => 2 + intLength 8 block
  | .rdsk => 1

/-! ### An instruction given as a number (opcode_table.json's numbering) -/

/-- Bytes filled up with zeros to a length. -/
def padTo (n : Nat) (bs : List Byte) : List Byte := bs ++ List.replicate (n - bs.length) 0

/-- `n` rows of a table frame, with every byte that is missing taken as 0. -/
def padRows : Nat → List Byte → List Byte
  | 0, bs => bs
  | n + 1, [] => 0 :: padRows n []
  | n + 1, ncols :: rest =>
    ncols :: (padTo ncols.toNat (rest.take ncols.toNat) ++ padRows n (rest.drop ncols.toNat))

/-- A frame begun by some bytes, filled up with zero bytes to the length its own length fields give it (log 11). -/
def padFrame : List Byte → List Byte
  | [] => []
  | op :: body =>
    if op = opLdkey ∨ op = opEnc ∨ op = opDec then
      match body with
      | [] => [op, 0]
      | len :: val => op :: len :: padTo len.toNat val
    else if op = opLdsbox then
      match body with
      | [] => [op, 0]
      | nrows :: rest => op :: nrows :: padRows nrows.toNat rest
    else op :: body

/-- The frame of an instruction whose first `nbits` bits are `w` and whose other bits are 0: byte 0 of the frame is
bits 7..0 of `w` (log 11). -/
def frameOfWord (nbits w : Nat) : List Byte := padFrame (leBytes ((nbits + 7) / 8) w)

/-- The instruction the decoder reads from a number; none where it refuses. -/
def decodeTableWord (nbits w : Nat) : Option Instr :=
  match decode (frameOfWord nbits w) with
  | .ok i => some i
  | .error _ => none

end Sys2Proof
end

