-- ==== Sys2Proof/Config.lean ====
section
/-!
DEFINITION. The fixed parameters of the core (00_scope.md R9) and the free values, which the spec leaves without any
value (10_state.md R30).
-/

namespace Sys2Proof

/-- `NROUNDS`: rounds in one ENC or DEC (00_scope.md R9; 42_encrypt.md R87: "The count is exactly 32"). -/
@[simp] abbrev Config.nRounds : Nat := 32

/-- `ROT`: the left-rotation distance of the round (00_scope.md R9). -/
@[simp] abbrev Config.rot : Nat := 11

/-- `ROWS`: rows of the substitution table (00_scope.md R9). -/
@[simp] abbrev Config.rows : Nat := 8

/-- `COLS`: columns of the substitution table (00_scope.md R9). -/
@[simp] abbrev Config.cols : Nat := 16

/-- The number of table cells, 128 (20_memory.md R33). -/
@[simp] abbrev Config.cells : Nat := 128

/-- Free value: what stands in `KEY` after the n-th reset. DESIGN CHOICE (log 1): no proof can see it. -/
opaque Config.freeKey : Nat → Key

/-- Free value: what stands in `K[0..7]` after the n-th reset. DESIGN CHOICE (log 2). -/
opaque Config.freeSubkeys : Nat → Vector Word 8

/-- Free value: what stands in `L` after the n-th reset. DESIGN CHOICE (log 4). -/
opaque Config.freeLeft : Nat → Word

/-- Free value: what stands in `R` after the n-th reset. DESIGN CHOICE (log 4). -/
opaque Config.freeRight : Nat → Word

/-- Free value: what stands in `MODE` after the n-th reset. DESIGN CHOICE (log 4). -/
opaque Config.freeMode : Nat → Mode

end Sys2Proof
end

