-- ==== Sys2Proof/Machine/State.lean ====
section
/-!
DEFINITION. The state of the core as plain data (10_state.md R15), the reasons a step can stop, and the state after
reset (10_state.md R30).
-/

namespace Sys2Proof.Machine

/-- The substitution-table memory (20_memory.md R33): cell addresses 0..127 with the 4-bit cell stored there, in
rising order of address. An address that is not listed holds no value (10_state.md R18; log 3). -/
abbrev Memory := List (Nat × Nibble)

/-- Everything 10_state.md R15 gives the core, the two ends of the transport (20_memory.md R40, 30_encoding.md R53)
and the model's counter of free values. -/
structure State where
  /-- `KEY`, the master key (10_state.md R16). -/
  key : Key
  /-- `KV`, key valid (10_state.md R16, R23). -/
  kv : Bool
  /-- `K[0..7]`, the subkeys (10_state.md R17). -/
  k : Vector Word 8
  /-- `S`, the substitution table (10_state.md R18). -/
  sbox : Memory
  /-- `SV`, table valid (10_state.md R18, R23). -/
  sv : Bool
  /-- `L`, the left half of the block in flight (10_state.md R20). -/
  l : Word
  /-- `R`, the right half of the block in flight (10_state.md R20). -/
  r : Word
  /-- `RND`, the number of rounds completed (10_state.md R21). -/
  rnd : BitVec 6
  /-- `MODE`, the traversal in use (10_state.md R22). -/
  mode : Mode
  /-- `BUSY`, a command is in flight (10_state.md R22). -/
  busy : Bool
  /-- What the host does next, first first (20_memory.md R40; log 7). -/
  inbox : List HostAction
  /-- The response frames emitted, oldest first (30_encoding.md R53; log 7). -/
  sent : List (List Byte)
  /-- How many times the free values have been drawn. The model's own field (log 5). -/
  draws : Nat
  deriving DecidableEq, Repr

/-- What stops the machine with a fault. The spec has no machine fault: its errors are responses
(60_exceptions.md R119). -/
inductive Fault where
  /-- A command is in flight with `RND` in 33..63, values that are never taken (10_state.md R21). Raised by the
  round-stepped transition. Safe: no run reaches such a state (log 13). -/
  | roundCounterPast32
  deriving DecidableEq, Repr

/-- What the machine gives no meaning. -/
inductive Refusal where
  /-- An instruction that is not modelled, by its mnemonic. Raised by `exec` only. Safe. -/
  | notModelled (mnemonic : String)
  /-- A table cell is read that holds no value, or any cell while `SV = 0` (60_exceptions.md R139; 93 U7: refuse to
  read). Raised by the rounds of ENC and DEC. Safe: no legal state comes to it (log 3). -/
  | cellHoldsNoValue
  /-- A subkey is read while `KV = 0` (60_exceptions.md R139; 93 U7). Raised by a round of a command in flight. Safe: a
  command goes in flight only after its readiness check, and no legal state comes to it (log 2). -/
  | subkeyHoldsNoValue
  deriving DecidableEq, Repr

/-- The core right after reset (10_state.md R30; 70_reset_and_hazards.md R141): `KV = SV = BUSY = RND = 0`; what the
spec leaves without a value is a free value (log 1, 2, 4) or an empty memory (log 3); nothing offered, nothing sent. -/
def State.reset : State where
  key := Config.freeKey 0
  kv := false
  k := Config.freeSubkeys 0
  sbox := []
  sv := false
  l := Config.freeLeft 0
  r := Config.freeRight 0
  rnd := 0
  mode := Config.freeMode 0
  busy := false
  inbox := []
  sent := []
  draws := 1

end Sys2Proof.Machine
end

