-- ==== Sys2Proof/Machine/Ops.lean ====
section
/-!
DEFINITION. The named operations over table memory and registers, responding, raising an error, and the reset event.
-/

namespace Sys2Proof.Machine

/-! ### The substitution-table memory (20_memory.md R33) -/

/-- The canonical form: addresses strictly rising and below 128. -/
abbrev Memory.wf (m : Memory) : Prop :=
  m.Pairwise (fun p q => p.1 < q.1) ∧ ∀ p ∈ m, p.1 < Config.cells

/-- `MemRead(a, 1)` (00_scope.md R13): the cell at an address, or none where it holds no value. -/
def Memory.read (m : Memory) (a : Nat) : Option Nibble :=
  match m with
  | [] => none
  | (b, c) :: rest => if a = b then some c else Memory.read rest a

/-- `MemWrite(a, 1, c)` (00_scope.md R13), keeping the addresses in rising order. -/
def Memory.write (m : Memory) (a : Nat) (c : Nibble) : Memory :=
  match m with
  | [] => [(a, c)]
  | (b, d) :: rest =>
    if a < b then (a, c) :: (b, d) :: rest
    else if a = b then (a, c) :: rest
    else (b, d) :: Memory.write rest a c

/-- Every one of the 128 cells holds a value. -/
abbrev Memory.loaded (m : Memory) : Prop := ∀ a < Config.cells, (m.read a).isSome

/-- The cell address of row `i`, column `v` (20_memory.md R33: `a = 16*i + v`). -/
def cellAddr (i v : Nat) : Nat := 16 * i + v

/-! ### The end of a command (30_encoding.md R53, R54; 60_exceptions.md R121) -/

/-- The status code of an error (60_exceptions.md R120). -/
def errorCode (e : CommandError) : Byte :=
  match e with
  | .shapeError => 0x01
  | .rangeError => 0x02
  | .notReady => 0x03
  | .badCommand => 0x04
  | .frameError => 0x05

/-- The frame of a response: the status byte, then the data at its full width (30_encoding.md R53). -/
def responseFrame (r : Response) : List Byte :=
  match r with
  | .ok => [0x00]
  | .ok64 v => 0x00 :: leBytes 8 v.toNat
  | .ok8x32 ks => 0x00 :: ks.toList.flatMap fun w => leBytes 4 w.toNat
  | .err e => [errorCode e]

/-- Emit one response frame and clear `BUSY` (20_memory.md R40). -/
def State.respond (r : Response) (s : State) : State :=
  { s with busy := false, sent := s.sent ++ [responseFrame r] }

/-- `raise`, the one way a command or a frame fails (60_exceptions.md R121): no state of the command is written, the
response is the error's code alone, and the core is ready for the next command. There is nothing to save and nothing
to return from (R130). -/
def State.raise (e : CommandError) (s : State) : State := s.respond (.err e)

/-! ### Registers written together -/

/-- Write `KEY` and all eight subkeys (20_memory.md R44). -/
def State.writeKey (key : Key) (ks : Vector Word 8) (s : State) : State := { s with key := key, k := ks }

/-- Write the substitution table (20_memory.md R44). -/
def State.writeTable (m : Memory) (s : State) : State := { s with sbox := m }

/-- Write the working registers of ENC and DEC (10_state.md R20 to R22). -/
def State.writeWorking (mode : Mode) (lr : Word × Word) (rnd : BitVec 6) (s : State) : State :=
  { s with mode := mode, l := lr.1, r := lr.2, rnd := rnd }

/-! ### The transport and the reset event -/

/-- The host actions that remain. -/
def State.setInbox (rest : List HostAction) (s : State) : State := { s with inbox := rest }

/-- Accept a command: `BUSY` is set and the action is no longer held (20_memory.md R40). -/
def State.accept (rest : List HostAction) (s : State) : State := { s with inbox := rest, busy := true }

/-- The command stays in flight (42_encrypt.md R88: `BUSY <- 1` at its start). -/
def State.setBusy (s : State) : State := { s with busy := true }

/-- The reset event (70_reset_and_hazards.md R141): the flags, `BUSY` and `RND` are cleared; `KEY`, `K`, `L`, `R` and
`MODE` hold fresh free values and no table cell holds a value (log 6). No response is produced. -/
def State.resetEvent (s : State) : State :=
  { s with
    kv := false
    sv := false
    busy := false
    rnd := 0
    key := Config.freeKey s.draws
    k := Config.freeSubkeys s.draws
    sbox := []
    l := Config.freeLeft s.draws
    r := Config.freeRight s.draws
    mode := Config.freeMode s.draws
    draws := s.draws + 1 }

end Sys2Proof.Machine
end

