-- ==== Sys2Proof/Machine/Flags.lean ====
section
/-!
DEFINITION. The flags `KV` and `SV` (10_state.md R23). The core has no arithmetic flags.
-/

namespace Sys2Proof.Machine

/-- A successful LDKEY sets `KV`. -/
def State.setKV (s : State) : State := { s with kv := true }

/-- A successful LDSBOX sets `SV`. -/
def State.setSV (s : State) : State := { s with sv := true }

/-- RDSK needs `KV` (60_exceptions.md R124). -/
def State.keyReady (s : State) : Bool := s.kv

/-- ENC and DEC need both flags (60_exceptions.md R124). -/
def State.cipherReady (s : State) : Bool := s.kv && s.sv

end Sys2Proof.Machine
end

