-- ==== Sys2Proof/Machine/Operands.lean ====
section
/-!
DEFINITION. The operand forms: the range and shape checks, the split and merge of a block, and the cells of a table
operand.
-/

namespace Sys2Proof.Machine

/-- A key operand LDKEY accepts (40_key_schedule.md R67: not above `2^256 - 1`). -/
def keyOK (key : Nat) : Bool := decide (key ≤ 2 ^ 256 - 1)

/-- A block operand ENC and DEC accept, judged by its value alone (42_encrypt.md R85). -/
def blockOK (block : Nat) : Bool := decide (block ≤ 2 ^ 64 - 1)

/-- The shape check: exactly 8 rows, exactly 16 cells in each (44 R112). -/
def shapeOK (tbl : List (List Nat)) : Bool :=
  tbl.length == Config.rows && tbl.all fun row => row.length == Config.cols

/-- The cell check: no cell above 15 (44 R113). Asked only of a table of the right shape. -/
def rangeOK (tbl : List (List Nat)) : Bool := tbl.all fun row => row.all fun c => decide (c ≤ 15)

/-- `tbl[i][v][3:0]` (44 R111). -/
def tableCell (tbl : List (List Nat)) (i v : Nat) : Nibble := BitVec.ofNat 4 ((tbl.getD i []).getD v 0)

/-- The split: the high half is `L`, the low half is `R` (42_encrypt.md R93). -/
def split (block : Block) : Word × Word := (block.extractLsb' 32 32, block.extractLsb' 0 32)

/-- The merge: `R ‖ L`, the final halves the other way round (42_encrypt.md R94). -/
def merge (lr : Word × Word) : Block := (lr.2 ++ lr.1 : BitVec (32 + 32))

end Sys2Proof.Machine
end

