-- ==== Sys2Proof/Machine/Round.lean ====
section
/-!
DEFINITION. The round function MIX and its five steps (41_round_function.md).
-/

namespace Sys2Proof.Machine

/-- `rol32(v, n)` (00_scope.md R12). -/
def rol32 (v : Word) (n : Nat) : Word := (v <<< n) ||| (v >>> (32 - n))

/-- Step 1, KEYMIX: the subkey is mixed by XOR (41 R77). -/
def keyMix (right subkey : Word) : Word := right ^^^ subkey

/-- Nibble `i` of a word: bits `4i+3 : 4i` (41 R78). -/
def nibble (t : Word) (i : Nat) : Nibble := t.extractLsb' (4 * i) 4

/-- The first `n` of the eight lookups of SUBST: row `i` of the table replaces nibble `i`, and the results are put
back at the same bit positions. None if a cell holds no value. -/
def substRows (m : Memory) (t : Word) : Nat → Option Word
  | 0 => some 0
  | i + 1 =>
    match substRows m t i, m.read (cellAddr i (nibble t i).toNat) with
    | some s, some c => some (s ||| (c.setWidth 32 <<< (4 * i)))
    | _, _ => none

/-- Step 2, SUBST (41 R78). -/
def subst (m : Memory) (t : Word) : Option Word := substRows m t Config.rows

/-- Step 3, ROL11 (41 R79). -/
def rol11 (s : Word) : Word := rol32 s Config.rot

/-- Step 4, LMIX (41 R80). -/
def lMix (left r : Word) : Word := left ^^^ r

/-- Step 5, SWAP: the old right half, then the new value (41 R81). -/
def swapHalves (right newLeftHalf : Word) : Word × Word := (right, newLeftHalf)

/-- MIX (41 R76). -/
def mix (m : Memory) (lr : Word × Word) (subkey : Word) : Option (Word × Word) :=
  match subst m (keyMix lr.2 subkey) with
  | some s => some (swapHalves lr.2 (lMix lr.1 (rol11 s)))
  | none => none

end Sys2Proof.Machine
end

