-- ==== Sys2Proof/Machine/Network.lean ====
section
/-!
DEFINITION. What ENC and DEC share: the subkey schedule, the 32 rounds, the checks, and the round-stepped reading
(42_encrypt.md R84 to R96).
-/

namespace Sys2Proof.Machine

/-- `KSEL[MODE][c]`, the index of the subkey of the round with `RND[4:0] = c` (42_encrypt.md R92,
43_decrypt.md R102; 20_memory.md R34). -/
def ksel (mode : Mode) (c : BitVec 5) : Fin 8 :=
  match mode with
  | .enc => Fin.ofNat 8 (if c.toNat < 24 then c.toNat % 8 else 31 - c.toNat)
  | .dec => Fin.ofNat 8 (if c.toNat < 8 then c.toNat else 7 - c.toNat % 8)

/-- The subkey of round `j + 1`. -/
def roundKey (ks : Vector Word 8) (mode : Mode) (j : Nat) : Word := ks.get (ksel mode (BitVec.ofNat 5 j))

/-- The halves after the first `n` rounds (42_encrypt.md R95). -/
def network (m : Memory) (ks : Vector Word 8) (mode : Mode) (lr : Word × Word) : Nat → Option (Word × Word)
  | 0 => some lr
  | j + 1 =>
    match network m ks mode lr j with
    | some p => mix m p (roundKey ks mode j)
    | none => none

/-- The checks of ENC and DEC, NotReady before RangeError (42_encrypt.md R85, R86, R91; 43_decrypt.md R98). -/
def blockError (block : Nat) (s : State) : Option CommandError :=
  if !s.cipherReady then some .notReady
  else if !blockOK block then some .rangeError
  else none

/-- The whole of ENC (`MODE = 0`) or DEC (`MODE = 1`) as one transition (42_encrypt.md R91, 43_decrypt.md R101). -/
def cipherBlock (mode : Mode) (block : Nat) (s : State) : Host.Outcome State Fault Refusal :=
  match blockError block s with
  | some e => .next (s.raise e)
  | none =>
    match network s.sbox s.k mode (split (BitVec.ofNat 64 block)) Config.nRounds with
    | some lr => .next ((s.writeWorking mode lr 32).respond (.ok64 (merge lr)))
    | none => .refused .cellHoldsNoValue

/-! ### The round-stepped reading (42_encrypt.md R88) -/

/-- `start`: on acceptance, after the checks have passed. -/
def startBlock (mode : Mode) (block : Nat) (s : State) : Host.Outcome State Fault Refusal :=
  match blockError block s with
  | some e => .next (s.raise e)
  | none => .next (s.writeWorking mode (split (BitVec.ofNat 64 block)) 0).setBusy

/-- `round`, enabled while `RND < 32`: one MIX with the scheduled subkey, and `RND` advances by 1 (41 R72). It reads
`K` and `S`, which hold no value while `KV` or `SV` is 0 (60_exceptions.md R139). -/
def roundStep (s : State) : Host.Outcome State Fault Refusal :=
  if !s.kv then .refused .subkeyHoldsNoValue
  else if !s.sv then .refused .cellHoldsNoValue
  else
    match mix s.sbox (s.l, s.r) (roundKey s.k s.mode s.rnd.toNat) with
    | some lr => .next (s.writeWorking s.mode lr (s.rnd + 1))
    | none => .refused .cellHoldsNoValue

/-- `finish`, enabled when `RND = 32`: respond `R ‖ L`. -/
def finishStep (s : State) : State := s.respond (.ok64 (merge (s.l, s.r)))

/-- The one transition that is enabled while a command is in flight. `RND` never passes 32 (10_state.md R21). -/
def advance (s : State) : Host.Outcome State Fault Refusal :=
  if s.rnd.toNat < Config.nRounds then roundStep s
  else if s.rnd.toNat = Config.nRounds then .next (finishStep s)
  else .fault .roundCounterPast32

end Sys2Proof.Machine
end

