-- ==== Sys2Proof/Machine/Decrypt.lean ====
section
/-!
DEFINITION. The decryption network: DEC (43_decrypt.md).
-/

namespace Sys2Proof.Machine

/-- DEC (43_decrypt.md R101). -/
def execDec (block : Nat) (s : State) : Host.Outcome State Fault Refusal := cipherBlock .dec block s

end Sys2Proof.Machine
end

