-- ==== Sys2Proof/Machine/Encrypt.lean ====
section
/-!
DEFINITION. The encryption network: ENC (42_encrypt.md).
-/

namespace Sys2Proof.Machine

/-- ENC (42_encrypt.md R91). -/
def execEnc (block : Nat) (s : State) : Host.Outcome State Fault Refusal := cipherBlock .enc block s

end Sys2Proof.Machine
end

