-- ==== Sys2Proof/Machine/KeySchedule.lean ====
section
/-!
DEFINITION. The key schedule expander: `derive`, LDKEY and RDSK (40_key_schedule.md).
-/

namespace Sys2Proof.Machine

/-- `derive` (40_key_schedule.md R66): `ki = key[32*i+31 : 32*i]`. -/
def derive (key : Key) : Vector Word 8 := Vector.ofFn fun i => key.extractLsb' (32 * i.val) 32

/-- LDKEY (40_key_schedule.md R67). -/
def execLdkey (key : Nat) (s : State) : Host.Outcome State Fault Refusal :=
  if keyOK key then
    let k := BitVec.ofNat 256 key
    .next (((s.writeKey k (derive k)).setKV).respond .ok)
  else .next (s.raise .rangeError)

/-- RDSK (40_key_schedule.md R68). -/
def execRdsk (s : State) : Host.Outcome State Fault Refusal :=
  if s.keyReady then .next (s.respond (.ok8x32 s.k)) else .next (s.raise .notReady)

end Sys2Proof.Machine
end

