-- ==== Sys2Proof/Machine/TableLoad.lean ====
section
/-!
DEFINITION. Loading the substitution table: LDSBOX (44_table_load_and_construction.md).
-/

namespace Sys2Proof.Machine

/-- The cell address and the value of every cell of a table operand, row by row (44 R111, R114). -/
def tableCells (tbl : List (List Nat)) : List (Nat × Nibble) :=
  (List.range Config.rows).flatMap fun i =>
    (List.range Config.cols).map fun v => (cellAddr i v, tableCell tbl i v)

/-- All 128 cell writes (44 R111: `S[i][v] <- tbl[i][v][3:0]`). -/
def storeTable (tbl : List (List Nat)) (m : Memory) : Memory :=
  (tableCells tbl).foldl (fun m p => m.write p.1 p.2) m

/-- LDSBOX (44 R111): the shape, then the range of the whole operand, before any cell is written (R108, R109). -/
def execLdsbox (tbl : List (List Nat)) (s : State) : Host.Outcome State Fault Refusal :=
  if shapeOK tbl then
    if rangeOK tbl then .next (((s.writeTable (storeTable tbl s.sbox)).setSV).respond .ok)
    else .next (s.raise .rangeError)
  else .next (s.raise .shapeError)

end Sys2Proof.Machine
end

