-- ==== Sys2Proof/Machine/Dispatch.lean ====
section
/-!
DEFINITION. The meaning of every command (30_encoding.md R47), one arm each.
-/

namespace Sys2Proof.Machine

def exec (i : Instr) (s : State) : Host.Outcome State Fault Refusal :=
  match i with
  | .ldkey key => Sys2Proof.Machine.execLdkey key s
  | .ldsbox tbl => Sys2Proof.Machine.execLdsbox tbl s
  | .enc block => Sys2Proof.Machine.execEnc block s
  | .dec block => Sys2Proof.Machine.execDec block s
  | .rdsk => Sys2Proof.Machine.execRdsk s

end Sys2Proof.Machine
end

