-- ==== Sys2Proof/Machine/Accept.lean ====
section
/-!
DEFINITION. From a host action to a transition: accepting a frame, the reset event, and the commands in flight
(20_memory.md R40; 42_encrypt.md R88; 70_reset_and_hazards.md R141, R142).
-/

namespace Sys2Proof.Machine

/-- Decode an accepted frame and execute its command as one atomic transition; a decode error is a response
(30_encoding.md R57; 60_exceptions.md R125). -/
def runFrame (bytes : List Byte) (s : State) : Host.Outcome State Fault Refusal :=
  match decode bytes with
  | .ok i => exec i s
  | .error e => .next (s.raise e)

/-- Begin a command in the round-stepped reading (42_encrypt.md R88): an ENC or DEC goes in flight, every other command
is one transition. -/
def beginCommand (i : Instr) (s : State) : Host.Outcome State Fault Refusal :=
  match i with
  | .enc block => startBlock .enc block s
  | .dec block => startBlock .dec block s
  | .ldkey key => exec (.ldkey key) s
  | .ldsbox tbl => exec (.ldsbox tbl) s
  | .rdsk => exec .rdsk s

/-- Decode an accepted frame and begin its command. -/
def beginFrame (bytes : List Byte) (s : State) : Host.Outcome State Fault Refusal :=
  match decode bytes with
  | .ok i => beginCommand i s
  | .error e => .next (s.raise e)

/-- The next host action of an idle core. With nothing offered the core waits (70_reset_and_hazards.md R152; log 10).
A reset during a command leaves what any reset leaves: the command in flight gets no response and the held ones are
discarded (R142; log 9). -/
def takeAction (s : State) : Host.Outcome State Fault Refusal :=
  match s.inbox with
  | [] => .next s
  | .frame bytes :: rest => runFrame bytes (s.accept rest)
  | .stepped bytes :: rest => beginFrame bytes (s.accept rest)
  | .reset :: rest => .next (s.setInbox rest).resetEvent
  | .resetDuring _ _ :: rest => .next (s.setInbox rest).resetEvent

/-- One transition of the core. A reset takes effect whether or not a command is in flight (R141, R142); while one is,
the transport holds the other actions (20_memory.md R40). -/
def transition (s : State) : Host.Outcome State Fault Refusal :=
  match s.busy, s.inbox with
  | true, .reset :: rest => .next (s.setInbox rest).resetEvent
  | true, _ => advance s
  | false, _ => takeAction s

/-- The core idle, with one frame offered before everything else. -/
def placeFrame (bytes : List Byte) (s : State) : State :=
  { s with busy := false, inbox := .frame bytes :: s.inbox }

end Sys2Proof.Machine
end

