-- ==== Sys2Proof/Machine/Step.lean ====
section
/-!
DEFINITION. One step of the core, and an instruction placed where the step takes its next one.
-/

namespace Sys2Proof.Machine

/-- One step (20_memory.md R40). -/
def step (s : State) : Host.Outcome State Fault Refusal := transition s

/-- The frame of a numbered instruction as the next thing offered (log 11). -/
def State.withFetchWord (s : State) (nbits w : Nat) : State := placeFrame (frameOfWord nbits w) s

end Sys2Proof.Machine
end

