-- ==== Sys2Proof/Machine/Construct.lean ====
section
/-!
DEFINITION. The pseudo-command NEW, the construction of a cipher instance (44_table_load_and_construction.md R117).
-/

namespace Sys2Proof.Machine

/-- The last response frame the core emitted has status OK. -/
def lastOk (s : State) : Bool :=
  match s.sent.getLast? with
  | some (st :: _) => st == 0x00
  | _ => false

/-- One host action of an idle core, before everything else that is offered. -/
def offer (act : HostAction) (s : State) : Host.Outcome State Fault Refusal :=
  step (s.setInbox (act :: s.inbox))

/-- The transitions of a command in flight, up to its response; at most `n` of them. -/
def settle (n : Nat) (s : State) : Host.Outcome State Fault Refusal :=
  match n with
  | 0 => .next s
  | n + 1 =>
    if s.busy then
      match advance s with
      | .next t => settle n t
      | o => o
    else .next s

/-- One abstract command, with any operands (30_encoding.md R48): the core accepts it after the response of the command
in flight, and executes it as one transition (20_memory.md R40). Where a frame carries the command, this is what offering
its canonical frame to an idle core does (log 22). -/
def offerCommand (i : Instr) (s : State) : Host.Outcome State Fault Refusal :=
  match settle (Config.nRounds + 1) s with
  | .next t => exec i (t.accept t.inbox)
  | o => o

/-- The second load of NEW, which is not offered if the first one failed. -/
def constructTable (tbl : List (List Nat)) (o : Host.Outcome State Fault Refusal) : Host.Outcome State Fault Refusal :=
  match o with
  | .next s => if lastOk s then offerCommand (.ldsbox tbl) s else .next s
  | .fault e => .fault e
  | .refused e => .refused e

/-- The first load of NEW. -/
def constructKey (key : Nat) (o : Host.Outcome State Fault Refusal) : Host.Outcome State Fault Refusal :=
  match o with
  | .next s => offerCommand (.ldkey key) s
  | .fault e => .fault e
  | .refused e => .refused e

/-- NEW: a reset, LDKEY, LDSBOX, stopping at the first response that is not OK (44 R117; 30_encoding.md R62). Three host
actions, not one command. Its operands are any key and any table, so that an operand no frame carries is rejected by the
command that checks it and not cut (44 R107; 30_encoding.md R48). -/
def construct (key : Nat) (tbl : List (List Nat)) (s : State) : Host.Outcome State Fault Refusal :=
  constructTable tbl (constructKey key (offer .reset s))

end Sys2Proof.Machine
end

