-- ==== Sys2Proof/Safety.lean ====
section
/-!
DEFINITION. What claims are stated in: answering, the legal states, and which states agree for a host.
-/

namespace Sys2Proof.Machine

/-- The step answers a next state: neither a fault nor a refusal. -/
abbrev Answers (o : Host.Outcome State Fault Refusal) : Prop := ∃ t, o = .next t

/-- The legal states of the core:
the table memory has its canonical form (20_memory.md R33);
a valid key has its own subkeys (10_state.md R19);
a valid table holds all 128 cells (10_state.md R18);
`RND` is never above 32 (10_state.md R21);
a command in flight has passed its readiness check (42_encrypt.md R88). -/
structure Inv (s : State) : Prop where
  memory : s.sbox.wf
  subkeys : s.kv = true → s.k = derive s.key
  table : s.sv = true → s.sbox.loaded
  rounds : s.rnd.toNat ≤ Config.nRounds
  inFlight : s.busy = true → s.kv = true ∧ s.sv = true

/-- The core is ready to encrypt and decrypt: a key and a table are loaded (70_reset_and_hazards.md R144), and the
table memory holds its cells, which `Inv` gives whenever `SV = 1`. -/
structure Configured (s : State) : Prop where
  kv : s.kv = true
  sv : s.sv = true
  cells : s.sbox.loaded

/-- The two states hold the same configuration: everything that persists from one command to the next
(10_state.md R15). -/
structure SameConfig (s t : State) : Prop where
  key : t.key = s.key
  kv : t.kv = s.kv
  k : t.k = s.k
  sbox : t.sbox = s.sbox
  sv : t.sv = s.sv

/-- The two states agree in everything but the transport and `BUSY`: what "changes no state" says of an error
(60_exceptions.md R126). -/
structure SameRegisters (s t : State) : Prop where
  config : SameConfig s t
  l : t.l = s.l
  r : t.r = s.r
  rnd : t.rnd = s.rnd
  mode : t.mode = s.mode
  draws : t.draws = s.draws

end Sys2Proof.Machine
end

