-- ==== Sys2Proof/Certificates/Slice0/Obligations.lean ====
section
/-!
DEFINITION. The statements for the provers. Each docstring names the rule of spec/ it formalises.
-/

open Sys2Proof Sys2Proof.Machine

/-! ### Frames and their decoding -/

/-- 30_encoding.md R59, R51, R52, R50: the decoder reads every canonical frame back, operand and all. -/
def Obligations.DecodeEncodeAgree : Prop :=
  ∀ i : Instr, WellFormed i → decode (encode i) = .ok i

/-- 30_encoding.md R51: the value of a format I frame is the little-endian sum of its value bytes, however many there
are, and the frame length must be exactly `2 + LEN`. -/
def Obligations.IntegerFramesCarryTheValue : Prop :=
  ∀ (op : Byte) (mk : Nat → Instr),
    (op = 0x01 ∧ mk = .ldkey) ∨ (op = 0x03 ∧ mk = .enc) ∨ (op = 0x04 ∧ mk = .dec) →
    decode [op] = .error .frameError ∧
    ∀ (len : Byte) (val : List Byte), decode (op :: len :: val) =
      if val.length = len.toNat then .ok (mk (val.mapIdx fun j b => b.toNat * 256 ^ j).sum)
      else .error .frameError

/-- 30_encoding.md R52: a format T frame is a row count, then each row as a cell count and its cells, one byte each,
with nothing before, between or after; any such table is carried, whatever its shape. -/
def Obligations.TableFramesCarryTheTable : Prop :=
  ∀ (body : List Byte) (tbl : List (List Nat)), decode (0x02 :: body) = .ok (.ldsbox tbl) ↔
    (tbl.length ≤ 255 ∧ ∀ row ∈ tbl, row.length ≤ 255 ∧ ∀ c ∈ row, c < 256) ∧
    body = BitVec.ofNat 8 tbl.length ::
      tbl.flatMap fun row => BitVec.ofNat 8 row.length :: row.map (BitVec.ofNat 8)

/-- 30_encoding.md R55: byte 0 alone selects the command, for all 256 values: `0x00` and `0x06..0xFF` are reserved,
each of the others selects its one command. -/
def Obligations.OpcodeByteSelectsTheCommand : Prop :=
  ∀ (op : Byte) (body : List Byte),
    (decode (op :: body) = .error .badCommand ↔ op = 0x00 ∨ 0x06 ≤ op) ∧
    ∀ i : Instr, decode (op :: body) = .ok i →
      match i with
      | .ldkey _ => op = 0x01
      | .ldsbox _ => op = 0x02
      | .enc _ => op = 0x03
      | .dec _ => op = 0x04
      | .rdsk => op = 0x05 ∧ body = []

/-- 95_test_vectors.md V7.1, V7.3: words written out from the encoding tables. -/
def Obligations.FramesOfTheSpecDecode : Prop :=
  decode [0x03, 0x08, 0xEE, 0x3F, 0x02, 0xF2, 0x3F, 0x02, 0xF2, 0xE0] = .ok (.enc 0xE0F2023FF2023FEE) ∧
  decode [0x04, 0x08, 0x2F, 0x53, 0x1D, 0x5F, 0x7F, 0x8A, 0x53, 0xF5] = .ok (.dec 0xF5538A7F5F1D532F) ∧
  decode [0x01, 0x01, 0x07] = .ok (.ldkey 7) ∧
  decode [0x02, 0x02, 0x01, 0x13, 0x02, 0x00, 0xFF] = .ok (.ldsbox [[19], [0, 255]]) ∧
  decode [0x05] = .ok .rdsk

/-- 30_encoding.md R56: reserved opcodes end with BadCommand and frames that are empty or of the wrong length with
FrameError, and neither changes any state. -/
def Obligations.ReservedAndMalformedFrames : Prop :=
  ∀ (s : State) (f : List Byte),
    ((∃ op body, f = op :: body ∧ (op = 0x00 ∨ 0x06 ≤ op)) →
      runFrame f s = .next { s with busy := false, sent := s.sent ++ [[0x04]] }) ∧
    ((f = [] ∨ (∃ b bs, f = 0x05 :: b :: bs) ∨
      (∃ op ∈ [(0x01 : Byte), 0x03, 0x04], f = [op] ∨ ∃ len val, f = op :: len :: val ∧ val.length ≠ len.toNat) ∨
      (∃ body, f = 0x02 :: body ∧ ¬∃ tbl, tableCarried tbl ∧ body = encodeTable tbl)) →
      runFrame f s = .next { s with busy := false, sent := s.sent ++ [[0x05]] })

/-- 30_encoding.md R53: the response frames, byte by byte, at their full width. -/
def Obligations.ResponseFramesByteByByte : Prop :=
  responseFrame .ok = [0x00] ∧
  (∀ e, ∃ st : Byte, st ≠ 0x00 ∧ responseFrame (.err e) = [st]) ∧
  (∀ v : Block, (responseFrame (.ok64 v)).length = 9 ∧ (responseFrame (.ok64 v))[0]? = some 0x00 ∧
    ∀ j < 8, (responseFrame (.ok64 v))[1 + j]? = some (v.extractLsb' (8 * j) 8)) ∧
  (∀ ks : Vector Word 8, (responseFrame (.ok8x32 ks)).length = 33 ∧ (responseFrame (.ok8x32 ks))[0]? = some 0x00 ∧
    ∀ (i : Fin 8) (j : Nat), j < 4 → (responseFrame (.ok8x32 ks))[1 + 4 * i.val + j]? = some (ks[i].extractLsb' (8 * j) 8))

/-! ### Steps, resets, the transport -/

/-- 30_encoding.md R57, 20_memory.md R40: an idle core with a frame offered accepts it (it is no longer held, `BUSY` is
set) and runs it, which is the execution of the command it decodes to. How the transport holds what is offered is the
model's choice (log 7). -/
def Obligations.StepRunsDecodedCommand : Prop :=
  ∀ (s : State) (f : List Byte) (rest : List HostAction), s.busy = false → s.inbox = .frame f :: rest →
    step s = runFrame f { s with inbox := rest, busy := true } ∧
    ∀ i : Instr, decode f = .ok i → step s = exec i { s with inbox := rest, busy := true }

/-- A numbered instruction placed for the fetch is the one the next step runs. The spec has no fetch: this is the
model's choice (log 11). -/
def Obligations.PlacedWordRuns : Prop :=
  ∀ (s : State) (nbits w : Nat) (i : Instr), decodeTableWord nbits w = some i →
    step (s.withFetchWord nbits w) = exec i { s with busy := true }

/-- 70_reset_and_hazards.md R152: the core never acts on its own; 42_encrypt.md R90: it then waits for ever. That
silence is an empty list is the model's choice (log 7, 10). -/
def Obligations.IdleCoreWaits : Prop :=
  ∀ s : State, s.busy = false → s.inbox = [] → ∀ n, core.run n s = .next s

/-- 70_reset_and_hazards.md R141, R142: a reset, whether or not a command is in flight, clears `KV`, `SV`, `BUSY` and
`RND`, and no response is produced for a command cut short. How a reset stands in the list of host actions is the
model's choice (log 7, 9). -/
def Obligations.ResetEventClears : Prop :=
  ∀ (s : State) (rest : List HostAction),
    (s.inbox = .reset :: rest ∨ s.busy = false ∧ ∃ f held, s.inbox = .resetDuring f held :: rest) →
    ∃ t, step s = .next t ∧ t.kv = false ∧ t.sv = false ∧ t.busy = false ∧ t.rnd = 0 ∧
      t.inbox = rest ∧ t.sent = s.sent

/-- 70_reset_and_hazards.md R141, 60_exceptions.md R124: whatever the core held and did before a reset, the command after
it answers NotReady if it needs a key or a table, and leaves the registers alone (the list of host actions: log 7). -/
def Obligations.AfterResetNotReady : Prop :=
  ∀ (s : State) (f : List Byte) (i : Instr) (rest : List HostAction), s.inbox = .reset :: .frame f :: rest →
    decode f = .ok i → i = .rdsk ∨ (∃ b, i = .enc b) ∨ (∃ b, i = .dec b) →
    ∃ t u, step s = .next t ∧ step t = .next u ∧ SameRegisters t u ∧ u.inbox = rest ∧ u.sent = s.sent ++ [[0x03]]

/-- 60_exceptions.md R127: every accepted frame gets exactly one response, OK or error, whatever its bytes: running it
answers, with one response frame appended and no other host action touched. The premise is what `Inv` gives. -/
def Obligations.OneResponsePerFrame : Prop :=
  ∀ (s : State) (f : List Byte), (s.sv = true → s.sbox.loaded) →
    ∃ t r, runFrame f s = .next t ∧ t.sent = s.sent ++ [responseFrame r] ∧ t.busy = false ∧ t.inbox = s.inbox

/-- 20_memory.md R40: while a command is in flight no other is accepted and none is lost; `K` and `S` do not change
(42_encrypt.md R88). The round-stepped reading is the model's second granularity (log 8). -/
def Obligations.InFlightHoldsTheRest : Prop :=
  ∀ s t : State, s.busy = true → (∀ rest, s.inbox ≠ .reset :: rest) → step s = .next t →
    t.inbox = s.inbox ∧ SameConfig s t ∧ t.mode = s.mode ∧ t.draws = s.draws ∧
    (t.busy = true ∧ t.sent = s.sent ∧ t.rnd.toNat = s.rnd.toNat + 1 ∨
      t.busy = false ∧ t.rnd = 32 ∧ t.sent = s.sent ++ [responseFrame (.ok64 (s.r ++ s.l : BitVec (32 + 32)))])

/-! ### The commands -/

/-- 40_key_schedule.md R67 (success), R66: LDKEY stores the key and all eight subkeys, sets `KV`, and touches nothing
else. -/
def Obligations.LdkeyLoads : Prop :=
  ∀ (key : Nat) (s : State), key < 2 ^ 256 →
    ∃ t, exec (.ldkey key) s = .next t ∧ t.key.toNat = key ∧ t.kv = true ∧
      (∀ i : Fin 8, t.k[i].toNat = key / 2 ^ (32 * i.val) % 2 ^ 32) ∧
      t = { s with key := t.key, k := t.k, kv := true, busy := false, sent := s.sent ++ [[0x00]] }

/-- 44 R114, R111 (success): LDSBOX stores the table cell for cell at addresses `16*i + v`, sets `SV`, and touches
nothing else, in the table memory or outside it. -/
def Obligations.LdsboxStoresCellForCell : Prop :=
  ∀ (tbl : List (List Nat)) (s : State),
    tbl.length = 8 → (∀ row ∈ tbl, row.length = 16 ∧ ∀ c ∈ row, c ≤ 15) →
    ∃ t, exec (.ldsbox tbl) s = .next t ∧ t.sv = true ∧
      (∀ i < 8, ∀ v < 16, ∃ c, t.sbox.read (cellAddr i v) = some c ∧
        (tbl[i]?.bind fun row => row[v]?) = some c.toNat ∧ cellAddr i v = 16 * i + v) ∧
      (∀ a, (∀ i < 8, ∀ v < 16, a ≠ cellAddr i v) → t.sbox.read a = s.sbox.read a) ∧
      t = { s with sbox := t.sbox, sv := true, busy := false, sent := s.sent ++ [[0x00]] }

/-- 42_encrypt.md R92, R93, R94: on a configured core ENC splits the block, runs 32 rounds with the subkeys
K0..K7 three times and K7..K0 once, and responds `R ‖ L`. -/
def Obligations.EncRunsItsSchedule : Prop :=
  ∀ (b : Block) (s : State), Configured s →
    ∃ t lr, exec (.enc b.toNat) s = .next t ∧
      ([0, 1, 2, 3, 4, 5, 6, 7, 0, 1, 2, 3, 4, 5, 6, 7, 0, 1, 2, 3, 4, 5, 6, 7, 7, 6, 5, 4, 3, 2, 1, 0] : List (Fin 8)).foldlM
        (fun p i => mix s.sbox p s.k[i]) (b.extractLsb' 32 32, b.extractLsb' 0 32) = some lr ∧
      t.sent = s.sent ++ [responseFrame (.ok64 (lr.2 ++ lr.1 : BitVec (32 + 32)))] ∧
      t.busy = false ∧ t.rnd = 32 ∧ SameConfig s t ∧ t.inbox = s.inbox

/-- 43_decrypt.md R102, R97: DEC does the same with the subkeys K0..K7 once and K7..K0 three times. -/
def Obligations.DecRunsItsSchedule : Prop :=
  ∀ (b : Block) (s : State), Configured s →
    ∃ t lr, exec (.dec b.toNat) s = .next t ∧
      ([0, 1, 2, 3, 4, 5, 6, 7, 7, 6, 5, 4, 3, 2, 1, 0, 7, 6, 5, 4, 3, 2, 1, 0, 7, 6, 5, 4, 3, 2, 1, 0] : List (Fin 8)).foldlM
        (fun p i => mix s.sbox p s.k[i]) (b.extractLsb' 32 32, b.extractLsb' 0 32) = some lr ∧
      t.sent = s.sent ++ [responseFrame (.ok64 (lr.2 ++ lr.1 : BitVec (32 + 32)))] ∧
      t.busy = false ∧ t.rnd = 32 ∧ SameConfig s t ∧ t.inbox = s.inbox

/-- 40_key_schedule.md R68 (success): RDSK responds the eight subkeys and writes no state. -/
def Obligations.RdskReadsTheSubkeys : Prop :=
  ∀ s : State, s.kv = true →
    exec .rdsk s = .next { s with busy := false, sent := s.sent ++ [responseFrame (.ok8x32 s.k)] }

/-- 60_exceptions.md R122: ShapeError, raised by LDSBOX only, exactly when the table is not 8 rows of 16 cells. -/
def Obligations.ShapeErrorRaised : Prop :=
  (∀ (tbl : List (List Nat)) (s : State), ¬(tbl.length = 8 ∧ ∀ row ∈ tbl, row.length = 16) →
    exec (.ldsbox tbl) s = .next { s with busy := false, sent := s.sent ++ [[0x01]] }) ∧
  ∀ (i : Instr) (s t : State), exec i s = .next t → t.sent = s.sent ++ [[0x01]] →
    ∃ tbl, i = .ldsbox tbl ∧ ¬(tbl.length = 8 ∧ ∀ row ∈ tbl, row.length = 16)

/-- 60_exceptions.md R123: the three causes of RangeError; the operand is rejected, not truncated. -/
def Obligations.RangeErrorRaised : Prop :=
  (∀ (tbl : List (List Nat)) (s : State), tbl.length = 8 → (∀ row ∈ tbl, row.length = 16) →
    (∃ row ∈ tbl, ∃ c ∈ row, 15 < c) →
    exec (.ldsbox tbl) s = .next { s with busy := false, sent := s.sent ++ [[0x02]] }) ∧
  (∀ (block : Nat) (s : State), s.kv = true → s.sv = true → 2 ^ 64 - 1 < block →
    exec (.enc block) s = .next { s with busy := false, sent := s.sent ++ [[0x02]] } ∧
    exec (.dec block) s = .next { s with busy := false, sent := s.sent ++ [[0x02]] }) ∧
  (∀ (key : Nat) (s : State), 2 ^ 256 - 1 < key →
    exec (.ldkey key) s = .next { s with busy := false, sent := s.sent ++ [[0x02]] })

/-- 60_exceptions.md R124: NotReady. -/
def Obligations.NotReadyRaised : Prop :=
  (∀ (block : Nat) (s : State), s.kv = false ∨ s.sv = false →
    exec (.enc block) s = .next { s with busy := false, sent := s.sent ++ [[0x03]] } ∧
    exec (.dec block) s = .next { s with busy := false, sent := s.sent ++ [[0x03]] }) ∧
  ∀ s : State, s.kv = false → exec .rdsk s = .next { s with busy := false, sent := s.sent ++ [[0x03]] }

/-- 60_exceptions.md R126: after any error response every piece of state has the value it had when the command was
accepted, and the response is the status alone. -/
def Obligations.ErrorWritesNothing : Prop :=
  ∀ (s t : State) (f : List Byte) (st : Byte) (data : List Byte), runFrame f s = .next t →
    t.sent = s.sent ++ [st :: data] → st ≠ 0x00 → SameRegisters s t ∧ t.inbox = s.inbox ∧ data = []

/-- 60_exceptions.md R128: the first check that fails, in the order of the rule, decides the response. -/
def Obligations.ErrorPriority : Prop :=
  ∀ (s : State) (f : List Byte), (s.sv = true → s.sbox.loaded) →
    ∃ t, runFrame f s = .next t ∧
      if f = [] then t.sent = s.sent ++ [[0x05]]
      else if f.head?.all (fun op => op = 0x00 ∨ 0x06 ≤ op) then t.sent = s.sent ++ [[0x04]]
      else match decode f with
        | .error _ => t.sent = s.sent ++ [[0x05]]
        | .ok (.enc b) | .ok (.dec b) =>
          if s.kv = false ∨ s.sv = false then t.sent = s.sent ++ [[0x03]]
          else if 2 ^ 64 ≤ b then t.sent = s.sent ++ [[0x02]]
          else ∃ v, t.sent = s.sent ++ [responseFrame (.ok64 v)]
        | .ok .rdsk =>
          if s.kv = false then t.sent = s.sent ++ [[0x03]] else t.sent = s.sent ++ [responseFrame (.ok8x32 s.k)]
        | .ok (.ldsbox tbl) =>
          if ¬(tbl.length = 8 ∧ ∀ row ∈ tbl, row.length = 16) then t.sent = s.sent ++ [[0x01]]
          else if ∃ row ∈ tbl, ∃ c ∈ row, 15 < c then t.sent = s.sent ++ [[0x02]]
          else t.sent = s.sent ++ [[0x00]]
        | .ok (.ldkey key) =>
          if 2 ^ 256 ≤ key then t.sent = s.sent ++ [[0x02]] else t.sent = s.sent ++ [[0x00]]

/-- 10_state.md R29: what each command leaves unchanged, on success and on error alike. -/
def Obligations.CommandFrame : Prop :=
  ∀ (i : Instr) (s t : State), exec i s = .next t →
    t.busy = false ∧ t.inbox = s.inbox ∧ t.draws = s.draws ∧
    match i with
    | .ldkey _ => t.sv = s.sv ∧ t.l = s.l ∧ t.r = s.r ∧ t.rnd = s.rnd ∧ t.mode = s.mode ∧
        ∀ a, t.sbox.read a = s.sbox.read a
    | .ldsbox _ => t.key = s.key ∧ t.kv = s.kv ∧ t.k = s.k ∧ t.l = s.l ∧ t.r = s.r ∧ t.rnd = s.rnd ∧ t.mode = s.mode ∧
        ∀ a, (∀ i < 8, ∀ v < 16, a ≠ cellAddr i v) → t.sbox.read a = s.sbox.read a
    | .enc _ | .dec _ => t.key = s.key ∧ t.kv = s.kv ∧ t.k = s.k ∧ t.sv = s.sv ∧ ∀ a, t.sbox.read a = s.sbox.read a
    | .rdsk => t.key = s.key ∧ t.kv = s.kv ∧ t.k = s.k ∧ t.sv = s.sv ∧ t.l = s.l ∧ t.r = s.r ∧ t.rnd = s.rnd ∧
        t.mode = s.mode ∧ ∀ a, t.sbox.read a = s.sbox.read a

/-- 40_key_schedule.md R68 (corner cases), 10_state.md R19: the 32 data bytes of RDSK are the key, least significant
byte first. -/
def Obligations.RdskDataIsTheKey : Prop :=
  ∀ s : State, Inv s → s.kv = true →
    ∃ t, exec .rdsk s = .next t ∧ t.sent = s.sent ++ [0x00 :: leBytes 32 s.key.toNat]

/-- 95_test_vectors.md V7.2, 40_key_schedule.md R67, R68: what RDSK returns after LDKEY are the value bytes of the
frame that loaded the key. -/
def Obligations.KeyReadBack : Prop :=
  ∀ (key : Nat) (s : State), key < 2 ^ 256 →
    ∃ t u, exec (.ldkey key) s = .next t ∧ exec .rdsk t = .next u ∧
      u.sent = t.sent ++ [0x00 :: (encode (.ldkey key)).drop 2]

/-! ### The key schedule and the round -/

/-- 40_key_schedule.md R69: `derive` is a bijection, its inverse is the concatenation of the subkeys, and bit `n` of
the key is bit `n mod 32` of subkey `n / 32`. -/
def Obligations.DeriveIsBitSelection : Prop :=
  (∀ (key : Key) (n : Nat), (h : n < 256) → key[n] = ((derive key)[n / 32])[n % 32]) ∧
  (∀ ks : Vector Word 8, ∃ key : Key, derive key = ks ∧ (∀ key' : Key, derive key' = ks → key' = key) ∧
    key = (ks[7] ++ ks[6] ++ ks[5] ++ ks[4] ++ ks[3] ++ ks[2] ++ ks[1] ++ ks[0] : BitVec (32 + 32 + 32 + 32 + 32 + 32 + 32 + 32)))

/-- 41_round_function.md R78: SUBST replaces nibble `i` by the cell of row `i` in the column of its value. -/
def Obligations.SubstNibbleByNibble : Prop :=
  ∀ (m : Memory) (t : Word), m.loaded →
    ∃ w, subst m t = some w ∧
      ∀ i < 8, m.read (16 * i + t.toNat / 2 ^ (4 * i) % 16) = some (w.extractLsb' (4 * i) 4)

/-- 41_round_function.md R79: ROL11 is the formula, the concatenation and the bit permutation. -/
def Obligations.RotationByEleven : Prop :=
  ∀ s : Word, rol11 s = ((s >>> 21) ||| (s <<< 11)) ∧
    rol11 s = (s.extractLsb' 0 21 ++ s.extractLsb' 21 11 : BitVec (21 + 11)) ∧
    ∀ b, (h : b < 32) → (rol11 s)[b] = s[(b + 21) % 32]

/-- 41_round_function.md R76: MIX is `(r, l XOR rol32(SUBST(r XOR k), 11))`, and has no failure on a loaded table. -/
def Obligations.MixFormula : Prop :=
  ∀ (m : Memory) (l r k : Word), m.loaded →
    ∃ s, subst m (r ^^^ k) = some s ∧ mix m (l, r) k = some (r, l ^^^ rol32 s 11)

/-- 41_round_function.md R82: the same round on the swapped output gives the swapped input. -/
def Obligations.MixUndoesItself : Prop :=
  ∀ (m : Memory) (p q : Word × Word) (k : Word), mix m p k = some q → mix m q.swap k = some p.swap

/-- 41_round_function.md R83 (c), (d): how a difference in the halves or the subkey passes through a round. -/
def Obligations.MixDifferences : Prop :=
  ∀ (m : Memory) (l r k d : Word),
    mix m (l ^^^ d, r) k = (mix m (l, r) k).map (fun p => (p.1, p.2 ^^^ d)) ∧
    mix m (l, r ^^^ d) (k ^^^ d) = (mix m (l, r) k).map (fun p => (p.1 ^^^ d, p.2))

/-! ### The cipher -/

/-- 43_decrypt.md R103, R100: DEC undoes ENC for every block, key and table, whatever the core did in between that left
the configuration alone. -/
def Obligations.DecryptUndoesEncrypt : Prop :=
  ∀ (b : Block) (s s' : State), Configured s → SameConfig s s' →
    ∃ c t u, exec (.enc b.toNat) s = .next t ∧ t.sent = s.sent ++ [responseFrame (.ok64 c)] ∧
      exec (.dec c.toNat) s' = .next u ∧ u.sent = s'.sent ++ [responseFrame (.ok64 b)]

/-- 43_decrypt.md R104: ENC undoes DEC. -/
def Obligations.EncryptUndoesDecrypt : Prop :=
  ∀ (b : Block) (s s' : State), Configured s → SameConfig s s' →
    ∃ c t u, exec (.dec b.toNat) s = .next t ∧ t.sent = s.sent ++ [responseFrame (.ok64 c)] ∧
      exec (.enc c.toNat) s' = .next u ∧ u.sent = s'.sent ++ [responseFrame (.ok64 b)]

/-- 43_decrypt.md R105: with palindromic subkeys ENC and DEC are the same function. -/
def Obligations.PalindromicKeyEncIsDec : Prop :=
  ∀ (b : Block) (s : State), Configured s → (∀ i : Fin 8, s.k[i] = s.k[i.rev]) →
    ∃ c t u, exec (.enc b.toNat) s = .next t ∧ exec (.dec b.toNat) s = .next u ∧
      t.sent = s.sent ++ [responseFrame (.ok64 c)] ∧ u.sent = s.sent ++ [responseFrame (.ok64 c)]

/-- 42_encrypt.md R96 (a): with constant rows ENC exchanges the halves of the block, whatever the key. -/
def Obligations.ConstantRowsExchangeHalves : Prop :=
  ∀ (b : Block) (s : State), s.kv = true → s.sv = true →
    (∀ i < 8, ∃ c, ∀ v < 16, s.sbox.read (16 * i + v) = some c) →
    ∃ t, exec (.enc b.toNat) s = .next t ∧
      t.sent = s.sent ++ [responseFrame (.ok64 (b.extractLsb' 0 32 ++ b.extractLsb' 32 32 : BitVec (32 + 32)))]

/-- 42_encrypt.md R84, 43_decrypt.md R100: the result of ENC and DEC is a function of the block, the subkeys and the
table alone. -/
def Obligations.ResultDependsOnConfigAlone : Prop :=
  ∀ (i : Instr) (s s' t : State), (∃ b, i = .enc b) ∨ (∃ b, i = .dec b) →
    s'.k = s.k → s'.sbox = s.sbox → s'.kv = s.kv → s'.sv = s.sv → exec i s = .next t →
    ∃ t' r, exec i s' = .next t' ∧ t.sent = s.sent ++ [r] ∧ t'.sent = s'.sent ++ [r]

/-! ### The round-stepped reading -/

/-- 30_encoding.md R60: the bit-level form of the subkey index, for all 64 pairs of `MODE` and `RND[4:0]`, and that the
two schedules are each other's mirror image (43_decrypt.md R102). -/
def Obligations.RoundControlWord : Prop :=
  ∀ c : BitVec 5,
    (ksel .enc c).val = (if c.extractLsb' 3 2 ≠ 3 then c.extractLsb' 0 3 else ~~~(c.extractLsb' 0 3)).toNat ∧
    (ksel .dec c).val = (if c.extractLsb' 3 2 = 0 then c.extractLsb' 0 3 else ~~~(c.extractLsb' 0 3)).toNat ∧
    ksel .dec c = ksel .enc (31 - c)

/-- 42_encrypt.md R88 (start), R93: an accepted block goes in flight with its halves in `L` and `R` and no round done.
That a host action asks for the round-stepped reading is the model's choice (log 8). -/
def Obligations.StartTransition : Prop :=
  ∀ (s : State) (f : List Byte) (rest : List HostAction) (b : Block) (mode : Mode),
    s.busy = false → s.inbox = .stepped f :: rest → s.kv = true → s.sv = true →
    decode f = .ok (match mode with | .enc => .enc b.toNat | .dec => .dec b.toNat) →
    step s = .next { s with inbox := rest, busy := true, mode := mode, rnd := 0,
                            l := b.extractLsb' 32 32, r := b.extractLsb' 0 32 }

/-- 42_encrypt.md R88 (round), 41_round_function.md R72: one MIX with the scheduled subkey; `RND` advances by 1. What
`L` and `R` hold in flight no host sees (R89): they are ghost values of the stepped reading (log 8). While `KV` or `SV` is
0 the subkeys or the table hold no value and the round is refused (60_exceptions.md R139). -/
def Obligations.RoundTransition : Prop :=
  ∀ s : State, s.busy = true → (∀ rest, s.inbox ≠ .reset :: rest) → s.rnd.toNat < 32 →
    (Configured s →
      ∃ lr, mix s.sbox (s.l, s.r) (s.k[ksel s.mode (s.rnd.setWidth 5)]) = some lr ∧
        step s = .next { s with l := lr.1, r := lr.2, rnd := s.rnd + 1 }) ∧
    (s.kv = false → step s = .refused .subkeyHoldsNoValue) ∧
    (s.kv = true → s.sv = false → step s = .refused .cellHoldsNoValue)

/-- 42_encrypt.md R89: the 34 transitions of the round-stepped reading give the state of the one atomic transition (both granularities are in the model: log 8). -/
def Obligations.SteppedAgreesWithAtomic : Prop :=
  ∀ (s : State) (f : List Byte) (rest : List HostAction) (b : Nat),
    s.busy = false → s.inbox = .stepped f :: rest → (∀ as, rest ≠ .reset :: as) →
    Configured s → b < 2 ^ 64 → decode f = .ok (.enc b) ∨ decode f = .ok (.dec b) →
    core.run 34 s = step { s with inbox := .frame f :: rest }

/-- 42_encrypt.md R88: a frame that does not bring a command in flight is one transition in either reading (log 8). -/
def Obligations.SteppedOtherwiseAtomic : Prop :=
  ∀ (s t : State) (f : List Byte) (rest : List HostAction),
    s.busy = false → s.inbox = .stepped f :: rest → step s = .next t → t.busy = false →
    step { s with inbox := .frame f :: rest } = .next t

/-- 70_reset_and_hazards.md R151, 42_encrypt.md R88: a command in flight with `RND = j` responds after `33 - j`
transitions, once, unless a reset intervenes (log 8). -/
def Obligations.InFlightCommandAnswers : Prop :=
  ∀ s : State, Inv s → s.busy = true → (∀ rest, s.inbox ≠ .reset :: rest) →
    ∃ t v, core.run (33 - s.rnd.toNat) s = .next t ∧ t.busy = false ∧ t.rnd = 32 ∧ t.inbox = s.inbox ∧
      SameConfig s t ∧ t.sent = s.sent ++ [responseFrame (.ok64 v)]

/-! ### The whole machine -/

/-- 10_state.md R30: the state after reset is a legal state. -/
def Obligations.ResetIsLegal : Prop := Inv State.reset

/-- 10_state.md R19, R18, R21, 20_memory.md R33: every step keeps a legal state legal. -/
def Obligations.StepKeepsLegal : Prop :=
  ∀ s t : State, Inv s → step s = .next t → Inv t

/-- 60_exceptions.md R119, R139: from a legal state the core always answers: it never faults and nothing is refused. -/
def Obligations.LegalStatesAnswer : Prop :=
  ∀ s : State, Inv s → Answers (step s)

/-- 10_state.md R23: `KV` and `SV` are set only by a successful LDKEY and LDSBOX, and cleared only by reset. -/
def Obligations.ValidFlagsChangeOnly : Prop :=
  ∀ s t : State, step s = .next t →
    (t.kv ≠ s.kv →
      t.kv = true ∧ (∃ f rest key, (s.inbox = .frame f :: rest ∨ s.inbox = .stepped f :: rest) ∧
        decode f = .ok (.ldkey key) ∧ key < 2 ^ 256) ∨
      t.kv = false ∧ ∃ rest, s.inbox = .reset :: rest ∨ ∃ f held, s.inbox = .resetDuring f held :: rest) ∧
    (t.sv ≠ s.sv →
      t.sv = true ∧ (∃ f rest tbl, (s.inbox = .frame f :: rest ∨ s.inbox = .stepped f :: rest) ∧
        decode f = .ok (.ldsbox tbl) ∧ shapeOK tbl = true ∧ rangeOK tbl = true) ∨
      t.sv = false ∧ ∃ rest, s.inbox = .reset :: rest ∨ ∃ f held, s.inbox = .resetDuring f held :: rest)

/-- 70_reset_and_hazards.md R144: however long it runs, a core without a key stays without one until an LDKEY is
offered. -/
def Obligations.NoKeyWithoutLdkey : Prop :=
  ∀ (n : Nat) (s t : State), s.kv = false →
    (∀ f key, HostAction.frame f ∈ s.inbox ∨ HostAction.stepped f ∈ s.inbox → decode f ≠ .ok (.ldkey key)) →
    core.run n s = .next t → t.kv = false

/-- 44 R117: NEW succeeds exactly when both loads succeed, and otherwise leaves no usable instance, for every key and every
table, carried by a frame or not (R107). That its actions stand in front of what else is offered, which is then untouched,
is the model's (log 22). -/
def Obligations.NewConstructsOrNotReady : Prop :=
  ∀ (key : Nat) (tbl : List (List Nat)) (s : State),
    ∃ t, construct key tbl s = .next t ∧ t.inbox = s.inbox ∧
      if 2 ^ 256 ≤ key then t.sent = s.sent ++ [[0x02]] ∧ t.kv = false ∧ t.sv = false
      else if shapeOK tbl = false then t.sent = s.sent ++ [[0x00], [0x01]] ∧ t.kv = true ∧ t.sv = false
      else if rangeOK tbl = false then t.sent = s.sent ++ [[0x00], [0x02]] ∧ t.kv = true ∧ t.sv = false
      else t.sent = s.sent ++ [[0x00], [0x00]] ∧ t.kv = true ∧ t.sv = true

/-- 30_encoding.md R48, R59: offering the canonical frame of a command to an idle core does what the abstract command
does, as one transition. The model offers it in front of what else is held (log 7, 22). -/
def Obligations.CanonicalFrameIsItsCommand : Prop :=
  ∀ (i : Instr) (s : State), WellFormed i → s.busy = false → offer (.frame (encode i)) s = offerCommand i s
end

