-- ==== Sys2Proof/Laws/State.lean ====
section
/-!
SUPPORT. What each update of the state does to each field: no later proof unfolds a record update.
-/

namespace Sys2Proof.Machine

variable (s : State)

/-! ### respond -/

@[simp] theorem State.respond_key (a : Response) : (s.respond a).key = s.key := rfl
@[simp] theorem State.respond_kv (a : Response) : (s.respond a).kv = s.kv := rfl
@[simp] theorem State.respond_k (a : Response) : (s.respond a).k = s.k := rfl
@[simp] theorem State.respond_sbox (a : Response) : (s.respond a).sbox = s.sbox := rfl
@[simp] theorem State.respond_sv (a : Response) : (s.respond a).sv = s.sv := rfl
@[simp] theorem State.respond_l (a : Response) : (s.respond a).l = s.l := rfl
@[simp] theorem State.respond_r (a : Response) : (s.respond a).r = s.r := rfl
@[simp] theorem State.respond_rnd (a : Response) : (s.respond a).rnd = s.rnd := rfl
@[simp] theorem State.respond_mode (a : Response) : (s.respond a).mode = s.mode := rfl
@[simp] theorem State.respond_busy (a : Response) : (s.respond a).busy = false := rfl
@[simp] theorem State.respond_inbox (a : Response) : (s.respond a).inbox = s.inbox := rfl
@[simp] theorem State.respond_sent (a : Response) : (s.respond a).sent = s.sent ++ [responseFrame a] := rfl
@[simp] theorem State.respond_draws (a : Response) : (s.respond a).draws = s.draws := rfl

/-! ### raise -/

@[simp] theorem State.raise_key (e : CommandError) : (s.raise e).key = s.key := rfl
@[simp] theorem State.raise_kv (e : CommandError) : (s.raise e).kv = s.kv := rfl
@[simp] theorem State.raise_k (e : CommandError) : (s.raise e).k = s.k := rfl
@[simp] theorem State.raise_sbox (e : CommandError) : (s.raise e).sbox = s.sbox := rfl
@[simp] theorem State.raise_sv (e : CommandError) : (s.raise e).sv = s.sv := rfl
@[simp] theorem State.raise_l (e : CommandError) : (s.raise e).l = s.l := rfl
@[simp] theorem State.raise_r (e : CommandError) : (s.raise e).r = s.r := rfl
@[simp] theorem State.raise_rnd (e : CommandError) : (s.raise e).rnd = s.rnd := rfl
@[simp] theorem State.raise_mode (e : CommandError) : (s.raise e).mode = s.mode := rfl
@[simp] theorem State.raise_busy (e : CommandError) : (s.raise e).busy = false := rfl
@[simp] theorem State.raise_inbox (e : CommandError) : (s.raise e).inbox = s.inbox := rfl
@[simp] theorem State.raise_sent (e : CommandError) : (s.raise e).sent = s.sent ++ [[errorCode e]] := rfl
@[simp] theorem State.raise_draws (e : CommandError) : (s.raise e).draws = s.draws := rfl

/-! ### writeKey -/

@[simp] theorem State.writeKey_key (x : Key) (ks : Vector Word 8) : (s.writeKey x ks).key = x := rfl
@[simp] theorem State.writeKey_kv (x : Key) (ks : Vector Word 8) : (s.writeKey x ks).kv = s.kv := rfl
@[simp] theorem State.writeKey_k (x : Key) (ks : Vector Word 8) : (s.writeKey x ks).k = ks := rfl
@[simp] theorem State.writeKey_sbox (x : Key) (ks : Vector Word 8) : (s.writeKey x ks).sbox = s.sbox := rfl
@[simp] theorem State.writeKey_sv (x : Key) (ks : Vector Word 8) : (s.writeKey x ks).sv = s.sv := rfl
@[simp] theorem State.writeKey_l (x : Key) (ks : Vector Word 8) : (s.writeKey x ks).l = s.l := rfl
@[simp] theorem State.writeKey_r (x : Key) (ks : Vector Word 8) : (s.writeKey x ks).r = s.r := rfl
@[simp] theorem State.writeKey_rnd (x : Key) (ks : Vector Word 8) : (s.writeKey x ks).rnd = s.rnd := rfl
@[simp] theorem State.writeKey_mode (x : Key) (ks : Vector Word 8) : (s.writeKey x ks).mode = s.mode := rfl
@[simp] theorem State.writeKey_busy (x : Key) (ks : Vector Word 8) : (s.writeKey x ks).busy = s.busy := rfl
@[simp] theorem State.writeKey_inbox (x : Key) (ks : Vector Word 8) : (s.writeKey x ks).inbox = s.inbox := rfl
@[simp] theorem State.writeKey_sent (x : Key) (ks : Vector Word 8) : (s.writeKey x ks).sent = s.sent := rfl
@[simp] theorem State.writeKey_draws (x : Key) (ks : Vector Word 8) : (s.writeKey x ks).draws = s.draws := rfl

/-! ### writeTable -/

@[simp] theorem State.writeTable_key (m : Memory) : (s.writeTable m).key = s.key := rfl
@[simp] theorem State.writeTable_kv (m : Memory) : (s.writeTable m).kv = s.kv := rfl
@[simp] theorem State.writeTable_k (m : Memory) : (s.writeTable m).k = s.k := rfl
@[simp] theorem State.writeTable_sbox (m : Memory) : (s.writeTable m).sbox = m := rfl
@[simp] theorem State.writeTable_sv (m : Memory) : (s.writeTable m).sv = s.sv := rfl
@[simp] theorem State.writeTable_l (m : Memory) : (s.writeTable m).l = s.l := rfl
@[simp] theorem State.writeTable_r (m : Memory) : (s.writeTable m).r = s.r := rfl
@[simp] theorem State.writeTable_rnd (m : Memory) : (s.writeTable m).rnd = s.rnd := rfl
@[simp] theorem State.writeTable_mode (m : Memory) : (s.writeTable m).mode = s.mode := rfl
@[simp] theorem State.writeTable_busy (m : Memory) : (s.writeTable m).busy = s.busy := rfl
@[simp] theorem State.writeTable_inbox (m : Memory) : (s.writeTable m).inbox = s.inbox := rfl
@[simp] theorem State.writeTable_sent (m : Memory) : (s.writeTable m).sent = s.sent := rfl
@[simp] theorem State.writeTable_draws (m : Memory) : (s.writeTable m).draws = s.draws := rfl

/-! ### writeWorking -/

@[simp] theorem State.writeWorking_key (d : Mode) (p : Word × Word) (n : BitVec 6) : (s.writeWorking d p n).key = s.key := rfl
@[simp] theorem State.writeWorking_kv (d : Mode) (p : Word × Word) (n : BitVec 6) : (s.writeWorking d p n).kv = s.kv := rfl
@[simp] theorem State.writeWorking_k (d : Mode) (p : Word × Word) (n : BitVec 6) : (s.writeWorking d p n).k = s.k := rfl
@[simp] theorem State.writeWorking_sbox (d : Mode) (p : Word × Word) (n : BitVec 6) : (s.writeWorking d p n).sbox = s.sbox := rfl
@[simp] theorem State.writeWorking_sv (d : Mode) (p : Word × Word) (n : BitVec 6) : (s.writeWorking d p n).sv = s.sv := rfl
@[simp] theorem State.writeWorking_l (d : Mode) (p : Word × Word) (n : BitVec 6) : (s.writeWorking d p n).l = p.1 := rfl
@[simp] theorem State.writeWorking_r (d : Mode) (p : Word × Word) (n : BitVec 6) : (s.writeWorking d p n).r = p.2 := rfl
@[simp] theorem State.writeWorking_rnd (d : Mode) (p : Word × Word) (n : BitVec 6) : (s.writeWorking d p n).rnd = n := rfl
@[simp] theorem State.writeWorking_mode (d : Mode) (p : Word × Word) (n : BitVec 6) : (s.writeWorking d p n).mode = d := rfl
@[simp] theorem State.writeWorking_busy (d : Mode) (p : Word × Word) (n : BitVec 6) : (s.writeWorking d p n).busy = s.busy := rfl
@[simp] theorem State.writeWorking_inbox (d : Mode) (p : Word × Word) (n : BitVec 6) : (s.writeWorking d p n).inbox = s.inbox := rfl
@[simp] theorem State.writeWorking_sent (d : Mode) (p : Word × Word) (n : BitVec 6) : (s.writeWorking d p n).sent = s.sent := rfl
@[simp] theorem State.writeWorking_draws (d : Mode) (p : Word × Word) (n : BitVec 6) : (s.writeWorking d p n).draws = s.draws := rfl

/-! ### setKV -/

@[simp] theorem State.setKV_key : (s.setKV).key = s.key := rfl
@[simp] theorem State.setKV_kv : (s.setKV).kv = true := rfl
@[simp] theorem State.setKV_k : (s.setKV).k = s.k := rfl
@[simp] theorem State.setKV_sbox : (s.setKV).sbox = s.sbox := rfl
@[simp] theorem State.setKV_sv : (s.setKV).sv = s.sv := rfl
@[simp] theorem State.setKV_l : (s.setKV).l = s.l := rfl
@[simp] theorem State.setKV_r : (s.setKV).r = s.r := rfl
@[simp] theorem State.setKV_rnd : (s.setKV).rnd = s.rnd := rfl
@[simp] theorem State.setKV_mode : (s.setKV).mode = s.mode := rfl
@[simp] theorem State.setKV_busy : (s.setKV).busy = s.busy := rfl
@[simp] theorem State.setKV_inbox : (s.setKV).inbox = s.inbox := rfl
@[simp] theorem State.setKV_sent : (s.setKV).sent = s.sent := rfl
@[simp] theorem State.setKV_draws : (s.setKV).draws = s.draws := rfl

/-! ### setSV -/

@[simp] theorem State.setSV_key : (s.setSV).key = s.key := rfl
@[simp] theorem State.setSV_kv : (s.setSV).kv = s.kv := rfl
@[simp] theorem State.setSV_k : (s.setSV).k = s.k := rfl
@[simp] theorem State.setSV_sbox : (s.setSV).sbox = s.sbox := rfl
@[simp] theorem State.setSV_sv : (s.setSV).sv = true := rfl
@[simp] theorem State.setSV_l : (s.setSV).l = s.l := rfl
@[simp] theorem State.setSV_r : (s.setSV).r = s.r := rfl
@[simp] theorem State.setSV_rnd : (s.setSV).rnd = s.rnd := rfl
@[simp] theorem State.setSV_mode : (s.setSV).mode = s.mode := rfl
@[simp] theorem State.setSV_busy : (s.setSV).busy = s.busy := rfl
@[simp] theorem State.setSV_inbox : (s.setSV).inbox = s.inbox := rfl
@[simp] theorem State.setSV_sent : (s.setSV).sent = s.sent := rfl
@[simp] theorem State.setSV_draws : (s.setSV).draws = s.draws := rfl

/-! ### setInbox -/

@[simp] theorem State.setInbox_key (as : List HostAction) : (s.setInbox as).key = s.key := rfl
@[simp] theorem State.setInbox_kv (as : List HostAction) : (s.setInbox as).kv = s.kv := rfl
@[simp] theorem State.setInbox_k (as : List HostAction) : (s.setInbox as).k = s.k := rfl
@[simp] theorem State.setInbox_sbox (as : List HostAction) : (s.setInbox as).sbox = s.sbox := rfl
@[simp] theorem State.setInbox_sv (as : List HostAction) : (s.setInbox as).sv = s.sv := rfl
@[simp] theorem State.setInbox_l (as : List HostAction) : (s.setInbox as).l = s.l := rfl
@[simp] theorem State.setInbox_r (as : List HostAction) : (s.setInbox as).r = s.r := rfl
@[simp] theorem State.setInbox_rnd (as : List HostAction) : (s.setInbox as).rnd = s.rnd := rfl
@[simp] theorem State.setInbox_mode (as : List HostAction) : (s.setInbox as).mode = s.mode := rfl
@[simp] theorem State.setInbox_busy (as : List HostAction) : (s.setInbox as).busy = s.busy := rfl
@[simp] theorem State.setInbox_inbox (as : List HostAction) : (s.setInbox as).inbox = as := rfl
@[simp] theorem State.setInbox_sent (as : List HostAction) : (s.setInbox as).sent = s.sent := rfl
@[simp] theorem State.setInbox_draws (as : List HostAction) : (s.setInbox as).draws = s.draws := rfl

/-! ### accept -/

@[simp] theorem State.accept_key (as : List HostAction) : (s.accept as).key = s.key := rfl
@[simp] theorem State.accept_kv (as : List HostAction) : (s.accept as).kv = s.kv := rfl
@[simp] theorem State.accept_k (as : List HostAction) : (s.accept as).k = s.k := rfl
@[simp] theorem State.accept_sbox (as : List HostAction) : (s.accept as).sbox = s.sbox := rfl
@[simp] theorem State.accept_sv (as : List HostAction) : (s.accept as).sv = s.sv := rfl
@[simp] theorem State.accept_l (as : List HostAction) : (s.accept as).l = s.l := rfl
@[simp] theorem State.accept_r (as : List HostAction) : (s.accept as).r = s.r := rfl
@[simp] theorem State.accept_rnd (as : List HostAction) : (s.accept as).rnd = s.rnd := rfl
@[simp] theorem State.accept_mode (as : List HostAction) : (s.accept as).mode = s.mode := rfl
@[simp] theorem State.accept_busy (as : List HostAction) : (s.accept as).busy = true := rfl
@[simp] theorem State.accept_inbox (as : List HostAction) : (s.accept as).inbox = as := rfl
@[simp] theorem State.accept_sent (as : List HostAction) : (s.accept as).sent = s.sent := rfl
@[simp] theorem State.accept_draws (as : List HostAction) : (s.accept as).draws = s.draws := rfl

/-! ### setBusy -/

@[simp] theorem State.setBusy_key : s.setBusy.key = s.key := rfl
@[simp] theorem State.setBusy_kv : s.setBusy.kv = s.kv := rfl
@[simp] theorem State.setBusy_k : s.setBusy.k = s.k := rfl
@[simp] theorem State.setBusy_sbox : s.setBusy.sbox = s.sbox := rfl
@[simp] theorem State.setBusy_sv : s.setBusy.sv = s.sv := rfl
@[simp] theorem State.setBusy_l : s.setBusy.l = s.l := rfl
@[simp] theorem State.setBusy_r : s.setBusy.r = s.r := rfl
@[simp] theorem State.setBusy_rnd : s.setBusy.rnd = s.rnd := rfl
@[simp] theorem State.setBusy_mode : s.setBusy.mode = s.mode := rfl
@[simp] theorem State.setBusy_busy : s.setBusy.busy = true := rfl
@[simp] theorem State.setBusy_inbox : s.setBusy.inbox = s.inbox := rfl
@[simp] theorem State.setBusy_sent : s.setBusy.sent = s.sent := rfl
@[simp] theorem State.setBusy_draws : s.setBusy.draws = s.draws := rfl

/-! ### resetEvent -/

@[simp] theorem State.resetEvent_key : (s.resetEvent).key = Config.freeKey s.draws := rfl
@[simp] theorem State.resetEvent_kv : (s.resetEvent).kv = false := rfl
@[simp] theorem State.resetEvent_k : (s.resetEvent).k = Config.freeSubkeys s.draws := rfl
@[simp] theorem State.resetEvent_sbox : (s.resetEvent).sbox = [] := rfl
@[simp] theorem State.resetEvent_sv : (s.resetEvent).sv = false := rfl
@[simp] theorem State.resetEvent_l : (s.resetEvent).l = Config.freeLeft s.draws := rfl
@[simp] theorem State.resetEvent_r : (s.resetEvent).r = Config.freeRight s.draws := rfl
@[simp] theorem State.resetEvent_rnd : (s.resetEvent).rnd = 0 := rfl
@[simp] theorem State.resetEvent_mode : (s.resetEvent).mode = Config.freeMode s.draws := rfl
@[simp] theorem State.resetEvent_busy : (s.resetEvent).busy = false := rfl
@[simp] theorem State.resetEvent_inbox : (s.resetEvent).inbox = s.inbox := rfl
@[simp] theorem State.resetEvent_sent : (s.resetEvent).sent = s.sent := rfl
@[simp] theorem State.resetEvent_draws : (s.resetEvent).draws = s.draws + 1 := rfl

/-! ### placeFrame -/

@[simp] theorem placeFrame_key (f : List Byte) : (placeFrame f s).key = s.key := rfl
@[simp] theorem placeFrame_kv (f : List Byte) : (placeFrame f s).kv = s.kv := rfl
@[simp] theorem placeFrame_k (f : List Byte) : (placeFrame f s).k = s.k := rfl
@[simp] theorem placeFrame_sbox (f : List Byte) : (placeFrame f s).sbox = s.sbox := rfl
@[simp] theorem placeFrame_sv (f : List Byte) : (placeFrame f s).sv = s.sv := rfl
@[simp] theorem placeFrame_l (f : List Byte) : (placeFrame f s).l = s.l := rfl
@[simp] theorem placeFrame_r (f : List Byte) : (placeFrame f s).r = s.r := rfl
@[simp] theorem placeFrame_rnd (f : List Byte) : (placeFrame f s).rnd = s.rnd := rfl
@[simp] theorem placeFrame_mode (f : List Byte) : (placeFrame f s).mode = s.mode := rfl
@[simp] theorem placeFrame_busy (f : List Byte) : (placeFrame f s).busy = false := rfl
@[simp] theorem placeFrame_inbox (f : List Byte) : (placeFrame f s).inbox = .frame f :: s.inbox := rfl
@[simp] theorem placeFrame_sent (f : List Byte) : (placeFrame f s).sent = s.sent := rfl
@[simp] theorem placeFrame_draws (f : List Byte) : (placeFrame f s).draws = s.draws := rfl

end Sys2Proof.Machine
end

