-- ==== Sys2Proof/Laws/Memory.lean ====
section
/-!
SUPPORT. The table memory: reading, writing, storing a whole table, and the canonical form.
-/

namespace Sys2Proof.Machine

/-! ### Reading and writing cells -/

@[simp] theorem Memory.read_nil (a : Nat) : Memory.read [] a = none := rfl

@[simp] theorem Memory.read_cons (b : Nat) (c : Nibble) (m : Memory) (a : Nat) :
    Memory.read ((b, c) :: m) a = if a = b then some c else Memory.read m a := rfl

@[simp] theorem Memory.read_write_same (m : Memory) (a : Nat) (c : Nibble) : (m.write a c).read a = some c := by
  induction m with
  | nil => simp [Memory.write]
  | cons p m ih =>
    obtain ⟨b, d⟩ := p
    unfold Memory.write
    split_ifs <;> simp_all

theorem Memory.read_write_other (m : Memory) {a b : Nat} (c : Nibble) (h : b ≠ a) :
    (m.write a c).read b = m.read b := by
  induction m with
  | nil => simp [Memory.write, h]
  | cons p m ih =>
    obtain ⟨d, e⟩ := p
    unfold Memory.write
    split_ifs <;> simp_all

/-- Every entry of a written memory is the new one or an old one. -/
theorem Memory.mem_write {m : Memory} {a : Nat} {c : Nibble} {p : Nat × Nibble} (h : p ∈ m.write a c) :
    p = (a, c) ∨ p ∈ m := by
  induction m with
  | nil => simpa [Memory.write] using h
  | cons q m ih => unfold Memory.write at h; split_ifs at h <;> simp_all <;> tauto

/-- A write keeps the canonical form. -/
theorem Memory.wf_write {m : Memory} (hm : m.wf) {a : Nat} (ha : a < Config.cells) (c : Nibble) : (m.write a c).wf := by
  induction m with
  | nil => simpa [Memory.wf, Memory.write] using ha
  | cons q m ih =>
    obtain ⟨hp, hb⟩ := hm
    rw [List.pairwise_cons] at hp
    have tail := ih ⟨hp.2, fun p h => hb p (.tail _ h)⟩
    have hq := hb q (.head _)
    unfold Memory.write
    split_ifs with h1 h2
    · refine ⟨List.pairwise_cons.2 ⟨fun p h => ?_, List.pairwise_cons.2 hp⟩, fun p h => ?_⟩
      · rcases List.mem_cons.1 h with rfl | h
        · exact h1
        · exact lt_trans h1 (hp.1 p h)
      · rcases List.mem_cons.1 h with rfl | h
        · exact ha
        · exact hb p h
    · refine ⟨List.pairwise_cons.2 ⟨fun p h => ?_, hp.2⟩, fun p h => ?_⟩
      · simpa [h2] using hp.1 p h
      · rcases List.mem_cons.1 h with rfl | h
        · exact ha
        · exact hb p (.tail _ h)
    · refine ⟨List.pairwise_cons.2 ⟨fun p h => ?_, tail.1⟩, fun p h => ?_⟩
      · rcases Memory.mem_write h with rfl | h
        · exact lt_of_le_of_ne (not_lt.1 h1) (Ne.symm h2)
        · exact hp.1 p h
      · rcases List.mem_cons.1 h with rfl | h
        · exact hq
        · exact tail.2 p h

/-! ### Many writes in a row -/

theorem Memory.wf_writes {l : List (Nat × Nibble)} (hl : ∀ p ∈ l, p.1 < Config.cells) {m : Memory} (hm : m.wf) :
    Memory.wf (l.foldl (fun m p => m.write p.1 p.2) m) := by
  induction l generalizing m with
  | nil => exact hm
  | cons p l ih => exact ih (fun q h => hl q (.tail _ h)) (Memory.wf_write hm (hl p (.head _)) _)

/-- An address that is not written keeps its cell. -/
theorem Memory.read_writes_other {l : List (Nat × Nibble)} {a : Nat} (ha : ∀ p ∈ l, p.1 ≠ a) (m : Memory) :
    Memory.read (l.foldl (fun m p => m.write p.1 p.2) m) a = m.read a := by
  induction l generalizing m with
  | nil => rfl
  | cons p l ih =>
    rw [List.foldl_cons, ih (fun q h => ha q (.tail _ h)), Memory.read_write_other _ _ (ha p (.head _)).symm]

/-- With no address written twice, every address written holds what was written. -/
theorem Memory.read_writes {l : List (Nat × Nibble)} (hl : l.Pairwise fun p q => p.1 ≠ q.1) {p : Nat × Nibble} (hp : p ∈ l)
    (m : Memory) : Memory.read (l.foldl (fun m p => m.write p.1 p.2) m) p.1 = some p.2 := by
  induction l generalizing m with
  | nil => cases hp
  | cons q l ih =>
    rw [List.pairwise_cons] at hl
    rcases List.mem_cons.1 hp with rfl | hp
    · rw [List.foldl_cons, Memory.read_writes_other (fun q h => (hl.1 q h).symm), Memory.read_write_same]
    · exact ih hl.2 hp _

/-! ### Storing a table (44 R111) -/

theorem mem_tableCells {tbl : List (List Nat)} {p : Nat × Nibble} :
    p ∈ tableCells tbl ↔ ∃ i < 8, ∃ v < 16, p = (cellAddr i v, tableCell tbl i v) := by
  simp [tableCells, eq_comm]

theorem cellAddr_lt {i v : Nat} (hi : i < 8) (hv : v < 16) : cellAddr i v < Config.cells := by
  simp only [cellAddr, Config.cells]; omega

/-- Every address below 128 is the cell of one row and column. -/
theorem exists_cellAddr {a : Nat} (ha : a < Config.cells) : ∃ i < 8, ∃ v < 16, a = cellAddr i v :=
  ⟨a / 16, by simp only [Config.cells] at ha; omega, a % 16, by omega, by simp only [cellAddr]; omega⟩

theorem tableCells_distinct (tbl : List (List Nat)) : (tableCells tbl).Pairwise fun p q => p.1 ≠ q.1 := by
  simp only [tableCells, List.pairwise_flatMap, List.pairwise_map, List.mem_range, List.mem_map]
  refine ⟨fun i _ => ?_, ?_⟩
  · exact (List.nodup_range (n := 16)).imp fun h => by simpa [cellAddr] using h
  · refine List.Pairwise.imp_of_mem ?_ (List.nodup_range (n := 8))
    rintro i j hi hj hij x ⟨v, hv, rfl⟩ y ⟨w, hw, rfl⟩
    simp only [Config.cols] at hv hw
    simp only [cellAddr, ne_eq]; omega

/-- A stored table holds its own cell at every row and column. -/
theorem storeTable_read (tbl : List (List Nat)) (m : Memory) {i v : Nat} (hi : i < 8) (hv : v < 16) :
    (storeTable tbl m).read (cellAddr i v) = some (tableCell tbl i v) :=
  Memory.read_writes (tableCells_distinct tbl) (mem_tableCells.2 ⟨i, hi, v, hv, rfl⟩) m

/-- Storing a table leaves every other address alone. -/
theorem storeTable_read_other (tbl : List (List Nat)) (m : Memory) {a : Nat}
    (ha : ∀ i < 8, ∀ v < 16, a ≠ cellAddr i v) : (storeTable tbl m).read a = m.read a :=
  Memory.read_writes_other (fun p hp => by
    obtain ⟨i, hi, v, hv, rfl⟩ := mem_tableCells.1 hp
    exact (ha i hi v hv).symm) m

theorem storeTable_wf (tbl : List (List Nat)) {m : Memory} (hm : m.wf) : (storeTable tbl m).wf :=
  Memory.wf_writes (fun p hp => by
    obtain ⟨i, hi, v, hv, rfl⟩ := mem_tableCells.1 hp
    exact cellAddr_lt hi hv) hm

theorem storeTable_loaded (tbl : List (List Nat)) (m : Memory) : (storeTable tbl m).loaded := fun a ha => by
  obtain ⟨i, hi, v, hv, rfl⟩ := exists_cellAddr ha
  simp [storeTable_read tbl m hi hv]
end Sys2Proof.Machine
end

