-- ==== Sys2Proof/Laws/Round.lean ====
section
/-!
SUPPORT. The round and the 32 rounds: when they answer, and all they can do.
-/

namespace Sys2Proof.Machine

/-! ### The round -/

theorem nibble_cellAddr_lt {i : Nat} (hi : i < 8) (v : Nibble) : cellAddr i v.toNat < Config.cells := by
  have := v.isLt
  simp only [cellAddr, Config.cells]; omega

theorem substRows_some {m : Memory} (hm : m.loaded) (t : Word) {n : Nat} (hn : n ≤ 8) :
    ∃ s, substRows m t n = some s := by
  induction n with
  | zero => exact ⟨0, rfl⟩
  | succ n ih =>
    obtain ⟨s, hs⟩ := ih (by omega)
    obtain ⟨c, hc⟩ := Option.isSome_iff_exists.1 (hm _ (nibble_cellAddr_lt (i := n) (by omega) (nibble t n)))
    exact ⟨s ||| (c.setWidth 32 <<< (4 * n)), by simp only [substRows, hs, hc]⟩

/-- On a loaded table SUBST always answers. -/
theorem subst_some {m : Memory} (hm : m.loaded) (t : Word) : ∃ s, subst m t = some s := substRows_some hm t le_rfl

/-- All MIX can do. -/
theorem mix_eq_some_iff {m : Memory} {p q : Word × Word} {k : Word} :
    mix m p k = some q ↔ ∃ s, subst m (p.2 ^^^ k) = some s ∧ q = (p.2, p.1 ^^^ rol11 s) := by
  unfold mix keyMix
  cases subst m (p.2 ^^^ k) <;> simp [swapHalves, lMix, eq_comm]

theorem mix_some {m : Memory} (hm : m.loaded) (p : Word × Word) (k : Word) : ∃ q, mix m p k = some q :=
  let ⟨s, hs⟩ := subst_some hm (p.2 ^^^ k)
  ⟨_, mix_eq_some_iff.2 ⟨s, hs, rfl⟩⟩

/-! ### The rounds -/

@[simp] theorem network_zero (m : Memory) (ks : Vector Word 8) (d : Mode) (p : Word × Word) :
    network m ks d p 0 = some p := rfl

theorem network_succ (m : Memory) (ks : Vector Word 8) (d : Mode) (p : Word × Word) (j : Nat) :
    network m ks d p (j + 1) = (network m ks d p j).bind fun q => mix m q (roundKey ks d j) := by
  rw [network]; cases network m ks d p j <;> rfl

theorem network_some {m : Memory} (hm : m.loaded) (ks : Vector Word 8) (d : Mode) (p : Word × Word) (n : Nat) :
    ∃ q, network m ks d p n = some q := by
  induction n with
  | zero => exact ⟨p, rfl⟩
  | succ n ih =>
    obtain ⟨q, hq⟩ := ih
    obtain ⟨q', hq'⟩ := mix_some hm q (roundKey ks d n)
    exact ⟨q', by rw [network_succ, hq]; exact hq'⟩

/-! ### Split and merge -/

/-- The merge puts the halves the other way round from the split (42_encrypt.md R94). -/
theorem split_merge (p : Word × Word) : split (merge p) = p.swap := by
  unfold split merge
  ext1 <;> apply BitVec.eq_of_getLsbD_eq <;> intro i hi <;>
    simp only [BitVec.getLsbD_append, BitVec.getLsbD_extractLsb', Prod.fst_swap, Prod.snd_swap, hi] <;> simp [hi]

theorem merge_split (b : Block) : merge (split b).swap = b := by
  unfold split merge
  apply BitVec.eq_of_getLsbD_eq
  intro i hi
  simp only [Prod.swap, BitVec.getLsbD_append, BitVec.getLsbD_extractLsb']
  split_ifs with h
  · simp [h]
  · have : i - 32 < 32 := by omega
    simp only [this, decide_true, Bool.true_and]
    congr 1
    omega

end Sys2Proof.Machine
end

