-- ==== Sys2Proof/Laws/Commands.lean ====
section
/-!
SUPPORT. The checks and the meaning of every command: all they can do.
-/

namespace Sys2Proof.Machine
/-! ### The checks -/

theorem blockError_eq_none_iff {b : Nat} {s : State} :
    blockError b s = none ↔ s.kv = true ∧ s.sv = true ∧ b < 2 ^ 64 := by
  unfold blockError State.cipherReady blockOK
  cases s.kv <;> cases s.sv <;> simp
  omega

theorem blockError_notReady {b : Nat} {s : State} (h : s.kv = false ∨ s.sv = false) :
    blockError b s = some .notReady := by
  unfold blockError State.cipherReady
  rcases h with h | h <;> simp [h]

theorem blockError_rangeError {b : Nat} {s : State} (hk : s.kv = true) (hs : s.sv = true) (h : 2 ^ 64 ≤ b) :
    blockError b s = some .rangeError := by
  have : ¬b ≤ 18446744073709551615 := by omega
  simp [blockError, State.cipherReady, blockOK, hk, hs, this]

theorem shapeOK_iff {tbl : List (List Nat)} : shapeOK tbl = true ↔ tbl.length = 8 ∧ ∀ row ∈ tbl, row.length = 16 := by
  simp [shapeOK]

theorem rangeOK_iff {tbl : List (List Nat)} : rangeOK tbl = true ↔ ∀ row ∈ tbl, ∀ c ∈ row, c ≤ 15 := by
  simp [rangeOK]

theorem keyOK_iff {key : Nat} : keyOK key = true ↔ key < 2 ^ 256 := by
  simp [keyOK]; omega

/-! ### The commands: all they can do -/

/-- ENC and DEC as one transition raise an error, or run 32 rounds and respond the merged halves. -/
theorem cipherBlock_next {d : Mode} {b : Nat} {s t : State} (h : cipherBlock d b s = .next t) :
    (∃ e, blockError b s = some e ∧ t = s.raise e) ∨
    ∃ lr, blockError b s = none ∧ network s.sbox s.k d (split (BitVec.ofNat 64 b)) 32 = some lr ∧
      t = (s.writeWorking d lr 32).respond (.ok64 (merge lr)) := by
  unfold cipherBlock at h
  split at h
  · rename_i e he
    exact .inl ⟨e, he, by simpa [eq_comm] using h⟩
  · rename_i he
    split at h
    · rename_i lr hlr
      exact .inr ⟨lr, he, hlr, by simpa [eq_comm] using h⟩
    · cases h

theorem cipherBlock_raise {d : Mode} {b : Nat} {s : State} {e : CommandError} (h : blockError b s = some e) :
    cipherBlock d b s = .next (s.raise e) := by
  simp [cipherBlock, h]

theorem cipherBlock_ok {d : Mode} {b : Nat} {s : State} {lr : Word × Word} (h : blockError b s = none)
    (hn : network s.sbox s.k d (split (BitVec.ofNat 64 b)) 32 = some lr) :
    cipherBlock d b s = .next ((s.writeWorking d lr 32).respond (.ok64 (merge lr))) := by
  simp [cipherBlock, h, hn]

/-- On a legal table ENC and DEC answer, whatever the operand. -/
theorem cipherBlock_answers {s : State} (hs : s.sv = true → s.sbox.loaded) (d : Mode) (b : Nat) :
    ∃ t, cipherBlock d b s = .next t := by
  cases he : blockError b s with
  | some e => exact ⟨_, cipherBlock_raise he⟩
  | none =>
    obtain ⟨-, hsv, -⟩ := blockError_eq_none_iff.1 he
    obtain ⟨lr, hlr⟩ := network_some (hs hsv) s.k d (split (BitVec.ofNat 64 b)) 32
    exact ⟨_, cipherBlock_ok he hlr⟩

/-- The start of the round-stepped reading raises an error, or loads the working registers. -/
theorem startBlock_next {d : Mode} {b : Nat} {s t : State} (h : startBlock d b s = .next t) :
    (∃ e, blockError b s = some e ∧ t = s.raise e) ∨
    blockError b s = none ∧ t = (s.writeWorking d (split (BitVec.ofNat 64 b)) 0).setBusy := by
  unfold startBlock at h
  split at h
  · rename_i e he
    exact .inl ⟨e, he, by simpa [eq_comm] using h⟩
  · rename_i he
    exact .inr ⟨he, by simpa [eq_comm] using h⟩

theorem startBlock_answers (d : Mode) (b : Nat) (s : State) : ∃ t, startBlock d b s = .next t := by
  unfold startBlock
  split <;> exact ⟨_, rfl⟩

/-- A transition in flight is one round, or the response. -/
theorem advance_next {s t : State} (h : advance s = .next t) :
    (∃ lr, s.kv = true ∧ s.sv = true ∧ s.rnd.toNat < 32 ∧ mix s.sbox (s.l, s.r) (roundKey s.k s.mode s.rnd.toNat) = some lr ∧
      t = s.writeWorking s.mode lr (s.rnd + 1)) ∨
    s.rnd.toNat = 32 ∧ t = s.respond (.ok64 (merge (s.l, s.r))) := by
  unfold advance at h
  split_ifs at h with h1 h2
  · unfold roundStep at h
    split_ifs at h with hk hv
    split at h
    · rename_i lr hlr
      exact .inl ⟨lr, by simpa using hk, by simpa using hv, h1, hlr, by simpa [eq_comm] using h⟩
    · cases h
  · exact .inr ⟨h2, by simpa [finishStep, eq_comm] using h⟩

theorem advance_round {s : State} {lr : Word × Word} (hk : s.kv = true) (hv : s.sv = true) (h : s.rnd.toNat < 32)
    (hm : mix s.sbox (s.l, s.r) (roundKey s.k s.mode s.rnd.toNat) = some lr) :
    advance s = .next (s.writeWorking s.mode lr (s.rnd + 1)) := by
  rw [advance, if_pos h, roundStep, hm]
  simp [hk, hv]

/-- While a valid flag is 0 a round is refused (60_exceptions.md R139). -/
theorem advance_refused {s : State} (h : s.rnd.toNat < 32) (hf : s.kv = false ∨ s.sv = false) :
    advance s = .refused (if s.kv then .cellHoldsNoValue else .subkeyHoldsNoValue) := by
  rw [advance, if_pos h, roundStep]
  cases hk : s.kv <;> cases hv : s.sv <;> simp_all

theorem advance_finish {s : State} (h : s.rnd.toNat = 32) :
    advance s = .next (s.respond (.ok64 (merge (s.l, s.r)))) := by
  rw [advance, if_neg (by simp [h]), if_pos h, finishStep]

theorem advance_answers {s : State} (hk : s.kv = true) (hv : s.sv = true) (hm : s.sbox.loaded) (hr : s.rnd.toNat ≤ 32) :
    ∃ t, advance s = .next t := by
  rcases Nat.lt_or_eq_of_le hr with h | h
  · obtain ⟨lr, hlr⟩ := mix_some hm (s.l, s.r) (roundKey s.k s.mode s.rnd.toNat)
    exact ⟨_, advance_round hk hv h hlr⟩
  · exact ⟨_, advance_finish h⟩

/-- LDKEY: RangeError, or the key, its subkeys and `KV` written. -/
theorem execLdkey_next {key : Nat} {s t : State} (h : execLdkey key s = .next t) :
    ¬key < 2 ^ 256 ∧ t = s.raise .rangeError ∨
    key < 2 ^ 256 ∧ t = ((s.writeKey (BitVec.ofNat 256 key) (derive (BitVec.ofNat 256 key))).setKV).respond .ok := by
  unfold execLdkey at h
  split_ifs at h with hk
  · exact .inr ⟨keyOK_iff.1 hk, by simpa [eq_comm] using h⟩
  · exact .inl ⟨fun hlt => hk (keyOK_iff.2 hlt), by simpa [eq_comm] using h⟩

/-- LDSBOX: ShapeError, RangeError, or the table and `SV` written. -/
theorem execLdsbox_next {tbl : List (List Nat)} {s t : State} (h : execLdsbox tbl s = .next t) :
    shapeOK tbl = false ∧ t = s.raise .shapeError ∨
    shapeOK tbl = true ∧ rangeOK tbl = false ∧ t = s.raise .rangeError ∨
    shapeOK tbl = true ∧ rangeOK tbl = true ∧ t = ((s.writeTable (storeTable tbl s.sbox)).setSV).respond .ok := by
  unfold execLdsbox at h
  split_ifs at h with h1 h2
  · exact .inr (.inr ⟨h1, h2, by simpa [eq_comm] using h⟩)
  · exact .inr (.inl ⟨h1, by simpa using h2, by simpa [eq_comm] using h⟩)
  · exact .inl ⟨by simpa using h1, by simpa [eq_comm] using h⟩

/-- RDSK: NotReady, or the subkeys as response. -/
theorem execRdsk_next {s t : State} (h : execRdsk s = .next t) :
    s.kv = false ∧ t = s.raise .notReady ∨ s.kv = true ∧ t = s.respond (.ok8x32 s.k) := by
  unfold execRdsk State.keyReady at h
  split_ifs at h with hk
  · exact .inr ⟨hk, by simpa [eq_comm] using h⟩
  · exact .inl ⟨by simpa using hk, by simpa [eq_comm] using h⟩

end Sys2Proof.Machine
end

