-- ==== Sys2Proof/Laws/Decode.lean ====
section
/-!
SUPPORT. The decoder and the encoder: little-endian integers, integer and table operands, opcode by opcode.
-/

namespace Sys2Proof

/-! ### Little-endian integers -/

@[simp] theorem leBytes_length (n v : Nat) : (leBytes n v).length = n := by
  induction n generalizing v with
  | zero => rfl
  | succ n ih => simp [leBytes, ih]

theorem leValue_leBytes (n v : Nat) : leValue (leBytes n v) = v % 256 ^ n := by
  induction n generalizing v with
  | zero => simp [leBytes, leValue, Nat.mod_one]
  | succ n ih =>
    have h : v % 256 ^ (n + 1) = v % 256 + 256 * (v / 256 % 256 ^ n) := by rw [pow_succ', Nat.mod_mul]
    rw [leBytes, leValue, ih, BitVec.toNat_ofNat, h]

theorem leValue_lt (bs : List Byte) : leValue bs < 256 ^ bs.length := by
  induction bs with
  | nil => simp [leValue]
  | cons b bs ih => rw [leValue, List.length_cons, pow_succ']; have := b.isLt; omega

theorem leBytes_leValue (bs : List Byte) : leBytes bs.length (leValue bs) = bs := by
  induction bs with
  | nil => rfl
  | cons b bs ih =>
    have hb := b.isLt
    have h1 : BitVec.ofNat 8 (leValue (b :: bs)) = b := by
      apply BitVec.eq_of_toNat_eq; rw [BitVec.toNat_ofNat, leValue]; omega
    have h2 : leValue (b :: bs) / 256 = leValue bs := by rw [leValue]; omega
    rw [List.length_cons, leBytes, h1, h2, ih]

/-! ### Integer operands -/

theorem lt_pow_intLength (nominal v : Nat) : v < 256 ^ intLength nominal v := by
  unfold intLength
  split_ifs with h
  · exact h
  · rw [show (256 : Nat) = 2 ^ 8 by norm_num, ← pow_mul]
    exact lt_of_lt_of_le Nat.lt_log2_self (Nat.pow_le_pow_right (by norm_num) (by omega))

theorem intLength_lt {nominal v : Nat} (hn : nominal < 256) (hv : intCarried v) : intLength nominal v < 256 := by
  unfold intLength
  split_ifs with h
  · exact hn
  · have h0 : v ≠ 0 := by rintro rfl; exact h (by positivity)
    have h1 : v < 2 ^ (8 * 255) := by rw [pow_mul]; exact hv
    have := (Nat.log2_lt h0).2 h1
    omega

theorem parseInteger_cons (len : Byte) (val : List Byte) :
    parseInteger (len :: val) = if val.length = len.toNat then .ok (leValue val) else .error .frameError := rfl

/-- The decoder reads a canonical integer operand back. -/
theorem parseInteger_encodeInteger {nominal v : Nat} (hn : nominal < 256) (hv : intCarried v) :
    parseInteger (encodeInteger nominal v) = .ok v := by
  have hl := intLength_lt hn hv
  simp [parseInteger, encodeInteger, leValue_leBytes, Nat.mod_eq_of_lt hl, Nat.mod_eq_of_lt (lt_pow_intLength nominal v)]

/-- What an integer operand carries is below 2^2040. -/
theorem intCarried_of_parseInteger {body : List Byte} {v : Nat} (h : parseInteger body = .ok v) : intCarried v := by
  match body, h with
  | len :: val, h =>
    rw [parseInteger_cons] at h
    split_ifs at h with hl
    obtain rfl : leValue val = v := by simpa using h
    exact lt_of_lt_of_le (leValue_lt val) (Nat.pow_le_pow_right (by norm_num) (by have := len.isLt; omega))

/-! ### Table operands -/

theorem map_ofNat_toNat (bs : List Byte) : (bs.map BitVec.toNat).map (BitVec.ofNat 8) = bs := by
  rw [List.map_map]
  conv_rhs => rw [← List.map_id bs]
  exact List.map_congr_left fun b _ => by simp

theorem map_toNat_ofNat {row : List Nat} (h : ∀ c ∈ row, c < 256) :
    (row.map (BitVec.ofNat 8)).map BitVec.toNat = row := by
  rw [List.map_map]
  conv_rhs => rw [← List.map_id row]
  exact List.map_congr_left fun c hc => by simpa using Nat.mod_eq_of_lt (h c hc)

/-- The decoder reads encoded rows back. -/
theorem parseRows_encodeRow {tbl : List (List Nat)} (h : ∀ row ∈ tbl, row.length ≤ 255 ∧ ∀ c ∈ row, c < 256) :
    parseRows tbl.length (tbl.flatMap encodeRow) = .ok tbl := by
  induction tbl with
  | nil => rfl
  | cons row tbl ih =>
    obtain ⟨hl, hc⟩ := h row (.head _)
    have hm : row.length % 256 = row.length := Nat.mod_eq_of_lt (by omega)
    have hr : (BitVec.ofNat 8 row.length).toNat = (row.map (BitVec.ofNat 8)).length := by simp [hm]
    simp only [List.length_cons, List.flatMap_cons, encodeRow, List.cons_append, parseRows, hr, List.drop_left,
      List.take_left, ih fun r hr => h r (.tail _ hr), map_toNat_ofNat hc]
    rw [if_neg (by simp)]

/-- Rows that the decoder reads are the rows that were encoded, with nothing after them. -/
theorem parseRows_ok {n : Nat} {body : List Byte} {tbl : List (List Nat)} (h : parseRows n body = .ok tbl) :
    tbl.length = n ∧ (∀ row ∈ tbl, row.length ≤ 255 ∧ ∀ c ∈ row, c < 256) ∧ body = tbl.flatMap encodeRow := by
  induction n generalizing body tbl with
  | zero =>
    match body, h with
    | [], h => obtain rfl : [] = tbl := by simpa [parseRows] using h
               simp
  | succ n ih =>
    match body, h with
    | ncols :: rest, h =>
      unfold parseRows at h
      split_ifs at h with hl
      split at h
      · rename_i rows hrows
        obtain rfl : (rest.take ncols.toNat).map BitVec.toNat :: rows = tbl := by simpa using h
        obtain ⟨h1, h2, h3⟩ := ih hrows
        have hn := ncols.isLt
        have ht : (rest.take ncols.toNat).length = ncols.toNat := by rw [List.length_take]; omega
        refine ⟨by simp [h1], fun row hrow => ?_, ?_⟩
        · rcases List.mem_cons.1 hrow with rfl | hrow
          · refine ⟨by rw [List.length_map, ht]; omega, fun c hc => ?_⟩
            obtain ⟨b, -, rfl⟩ := List.mem_map.1 hc
            exact b.isLt
          · exact h2 row hrow
        · rw [List.flatMap_cons, ← h3, encodeRow, map_ofNat_toNat, List.length_map, ht, List.cons_append,
            List.take_append_drop]
          simp
      · cases h

/-- The tables a format T operand carries are exactly the encoded ones. -/
theorem parseTable_ok_iff {body : List Byte} {tbl : List (List Nat)} :
    parseTable body = .ok tbl ↔ tableCarried tbl ∧ body = encodeTable tbl := by
  constructor
  · intro h
    match body, h with
    | nrows :: rest, h =>
      obtain ⟨h1, h2, rfl⟩ := parseRows_ok h
      have hn := nrows.isLt
      exact ⟨⟨by omega, h2⟩, by simp [encodeTable, h1]⟩
  · rintro ⟨⟨h1, h2⟩, rfl⟩
    have : (BitVec.ofNat 8 tbl.length).toNat = tbl.length := by simp only [BitVec.toNat_ofNat]; omega
    rw [encodeTable, parseTable, this, parseRows_encodeRow h2]

/-- A format T operand that no encoded table is, is of the wrong length. -/
theorem parseTable_error {body : List Byte} {e : CommandError} (h : parseTable body = .error e) : e = .frameError := by
  have rows : ∀ (n : Nat) (body : List Byte), parseRows n body = .error e → e = .frameError := by
    intro n
    induction n with
    | zero => intro body h; match body, h with | _ :: _, h => simpa [parseRows, eq_comm] using h
    | succ n ih =>
      intro body h
      match body, h with
      | [], h => simpa [parseRows, eq_comm] using h
      | ncols :: rest, h =>
        unfold parseRows at h
        split_ifs at h
        · simpa [eq_comm] using h
        · split at h
          · cases h
          · rename_i e' he'
            obtain rfl : e' = e := by simpa using h
            exact ih _ he'
  match body, h with
  | [], h => simpa [parseTable, eq_comm] using h
  | nrows :: rest, h => exact rows _ _ h

/-! ### The decoder, opcode by opcode -/

theorem decode_nil : decode [] = .error .frameError := rfl
theorem decode_ldkey (body : List Byte) : decode (0x01 :: body) = (parseInteger body).map .ldkey := rfl
theorem decode_ldsbox (body : List Byte) : decode (0x02 :: body) = (parseTable body).map .ldsbox := rfl
theorem decode_enc (body : List Byte) : decode (0x03 :: body) = (parseInteger body).map .enc := rfl
theorem decode_dec (body : List Byte) : decode (0x04 :: body) = (parseInteger body).map .dec := rfl
theorem decode_rdsk (body : List Byte) : decode (0x05 :: body) = (parseNone body).map fun _ => .rdsk := rfl

theorem decode_reserved {op : Byte} (h : op = 0x00 ∨ 0x06 ≤ op) (body : List Byte) :
    decode (op :: body) = .error .badCommand := by
  obtain ⟨h1, h2, h3, h4, h5⟩ : op ≠ 1 ∧ op ≠ 2 ∧ op ≠ 3 ∧ op ≠ 4 ∧ op ≠ 5 := by revert h; revert op; decide
  rw [decode, opLdkey, opLdsbox, opEnc, opDec, opRdsk, if_neg h1, if_neg h2, if_neg h3, if_neg h4, if_neg h5]

/-- An opcode is one of the five or reserved (30_encoding.md R55). -/
theorem opcode_cases (op : Byte) : op = 0x01 ∨ op = 0x02 ∨ op = 0x03 ∨ op = 0x04 ∨ op = 0x05 ∨ op = 0x00 ∨ 0x06 ≤ op := by
  revert op; decide

end Sys2Proof
end

