-- ==== Sys2Proof/Laws/PerInstr.lean ====
section
/-!
SUPPORT. Statements about every command as syntax, one lemma a constructor.
-/

namespace Sys2Proof.Laws.CanonicalFrame

/-- The canonical frame begins with the command's opcode and has the length of its format (30_encoding.md R55, R58). -/
def Statement (i : Instr) : Prop := (encode i).head? = some (opcode i) ∧ (encode i).length = frameLength i

theorem ldkey (key : Nat) : Statement (.ldkey key) :=
  ⟨rfl, by simp only [encode, encodeInteger, frameLength, List.length_cons, leBytes_length]; omega⟩

theorem ldsbox (tbl : List (List Nat)) : Statement (.ldsbox tbl) := by
  refine ⟨rfl, ?_⟩
  have h : (tbl.flatMap encodeRow).length = tbl.length + (tbl.map List.length).sum := by
    induction tbl with
    | nil => rfl
    | cons row tbl ih =>
      simp only [List.flatMap_cons, List.length_append, ih, encodeRow, List.length_cons, List.length_map, List.map_cons,
        List.sum_cons]
      omega
  simp only [encode, encodeTable, frameLength, List.length_cons, h]
  omega

theorem enc (block : Nat) : Statement (.enc block) :=
  ⟨rfl, by simp only [encode, encodeInteger, frameLength, List.length_cons, leBytes_length]; omega⟩

theorem dec (block : Nat) : Statement (.dec block) :=
  ⟨rfl, by simp only [encode, encodeInteger, frameLength, List.length_cons, leBytes_length]; omega⟩

theorem rdsk : Statement .rdsk := ⟨rfl, rfl⟩

end Sys2Proof.Laws.CanonicalFrame

namespace Sys2Proof

/-- The test of well-formedness decides it. -/
theorem wellFormed_iff (i : Instr) : wellFormed i = true ↔ WellFormed i := by
  cases i <;> simp only [wellFormed, WellFormed, decide_eq_true_eq]

end Sys2Proof
end

