-- ==== Sys2Proof/Laws/Step.lean ====
section
/-!
SUPPORT. One step and runs of steps: all they can do.
-/

namespace Sys2Proof.Machine
/-! ### One step: all it can do -/

theorem step_idle {s : State} (hb : s.busy = false) : step s = takeAction s := by
  simp [step, transition, hb]

theorem step_reset {s : State} {rest : List HostAction} (hi : s.inbox = .reset :: rest) :
    step s = .next (s.setInbox rest).resetEvent := by
  cases hb : s.busy <;> simp [step, transition, takeAction, hb, hi]

theorem step_busy {s : State} (hb : s.busy = true) (hi : ∀ rest, s.inbox ≠ .reset :: rest) : step s = advance s := by
  unfold step transition
  split
  · rename_i rest _ h
    exact absurd h (hi rest)
  · rfl
  · simp_all

theorem step_frame {s : State} {f : List Byte} {rest : List HostAction} (hb : s.busy = false)
    (hi : s.inbox = .frame f :: rest) : step s = runFrame f (s.accept rest) := by
  rw [step_idle hb, takeAction, hi]

theorem step_stepped {s : State} {f : List Byte} {rest : List HostAction} (hb : s.busy = false)
    (hi : s.inbox = .stepped f :: rest) : step s = beginFrame f (s.accept rest) := by
  rw [step_idle hb, takeAction, hi]

theorem step_resetDuring {s : State} {f : List Byte} {held : List (List Byte)} {rest : List HostAction}
    (hb : s.busy = false) (hi : s.inbox = .resetDuring f held :: rest) :
    step s = .next (s.setInbox rest).resetEvent := by
  rw [step_idle hb, takeAction, hi]

theorem runFrame_ok {f : List Byte} {i : Instr} (h : decode f = .ok i) (s : State) : runFrame f s = exec i s := by
  rw [runFrame, h]

theorem runFrame_error {f : List Byte} {e : CommandError} (h : decode f = .error e) (s : State) :
    runFrame f s = .next (s.raise e) := by
  rw [runFrame, h]

theorem beginFrame_ok {f : List Byte} {i : Instr} (h : decode f = .ok i) (s : State) :
    beginFrame f s = beginCommand i s := by
  rw [beginFrame, h]

theorem beginFrame_error {f : List Byte} {e : CommandError} (h : decode f = .error e) (s : State) :
    beginFrame f s = .next (s.raise e) := by
  rw [beginFrame, h]

/-- Beginning a command is executing it, or starting a block whose checks have passed. -/
theorem beginCommand_next {i : Instr} {s t : State} (h : beginCommand i s = .next t) :
    exec i s = .next t ∨
    ∃ d b, (d = .enc ∧ i = .enc b ∨ d = .dec ∧ i = .dec b) ∧ blockError b s = none ∧
      t = (s.writeWorking d (split (BitVec.ofNat 64 b)) 0).setBusy := by
  cases i with
  | enc b =>
    rcases startBlock_next h with ⟨e, he, rfl⟩ | ⟨hn, rfl⟩
    · exact .inl (cipherBlock_raise he)
    · exact .inr ⟨.enc, b, .inl ⟨rfl, rfl⟩, hn, rfl⟩
  | dec b =>
    rcases startBlock_next h with ⟨e, he, rfl⟩ | ⟨hn, rfl⟩
    · exact .inl (cipherBlock_raise he)
    · exact .inr ⟨.dec, b, .inr ⟨rfl, rfl⟩, hn, rfl⟩
  | ldkey key => exact .inl h
  | ldsbox tbl => exact .inl h
  | rdsk => exact .inl h

/-- Every step that answers is one of these. -/
theorem step_cases {s t : State} (h : step s = .next t) :
    (∃ rest, (s.inbox = .reset :: rest ∨ s.busy = false ∧ ∃ f held, s.inbox = .resetDuring f held :: rest) ∧
      t = (s.setInbox rest).resetEvent) ∨
    (s.busy = true ∧ (∀ rest, s.inbox ≠ .reset :: rest) ∧ advance s = .next t) ∨
    (s.busy = false ∧ s.inbox = [] ∧ t = s) ∨
    (∃ f rest, s.busy = false ∧ s.inbox = .frame f :: rest ∧ runFrame f (s.accept rest) = .next t) ∨
    (∃ f rest, s.busy = false ∧ s.inbox = .stepped f :: rest ∧ beginFrame f (s.accept rest) = .next t) := by
  by_cases hr : ∃ rest, s.inbox = .reset :: rest
  · obtain ⟨rest, hr⟩ := hr
    rw [step_reset hr] at h
    exact .inl ⟨rest, .inl hr, by simpa [eq_comm] using h⟩
  · have hr : ∀ rest, s.inbox ≠ .reset :: rest := fun rest he => hr ⟨rest, he⟩
    cases hb : s.busy with
    | true => rw [step_busy hb hr] at h; exact .inr (.inl ⟨rfl, hr, h⟩)
    | false =>
      match hi : s.inbox with
      | [] => rw [step_idle hb, takeAction, hi] at h; exact .inr (.inr (.inl ⟨rfl, rfl, by simpa [eq_comm] using h⟩))
      | .frame f :: rest => rw [step_frame hb hi] at h; exact .inr (.inr (.inr (.inl ⟨f, rest, rfl, rfl, h⟩)))
      | .stepped f :: rest => rw [step_stepped hb hi] at h; exact .inr (.inr (.inr (.inr ⟨f, rest, rfl, rfl, h⟩)))
      | .reset :: rest => exact absurd hi (hr rest)
      | .resetDuring f held :: rest =>
        rw [step_resetDuring hb hi] at h
        exact .inl ⟨rest, .inr ⟨rfl, f, held, rfl⟩, by simpa [eq_comm] using h⟩

/-! ### Runs -/

@[simp] theorem run_zero (s : State) : core.run 0 s = .next s := rfl

theorem run_succ {s t : State} (h : step s = .next t) (n : Nat) : core.run (n + 1) s = core.run n t := by
  have h' : core.step s = .next t := h
  simp only [Host.Core.run, h']

/-- A run of one step more that answers has a first step. -/
theorem run_succ_next {s t : State} {n : Nat} (h : core.run (n + 1) s = .next t) :
    ∃ s', step s = .next s' ∧ core.run n s' = .next t := by
  simp only [Host.Core.run] at h
  split at h
  · rename_i s' hs'; exact ⟨s', hs', h⟩
  · cases h
  · cases h

/-! ### Abstract commands and NEW -/

theorem settle_idle {s : State} (hb : s.busy = false) (n : Nat) : settle n s = .next s := by
  cases n <;> simp [settle, hb]

theorem offerCommand_idle {s : State} (hb : s.busy = false) (i : Instr) :
    offerCommand i s = exec i (s.accept s.inbox) := by
  rw [offerCommand, settle_idle hb]

theorem offer_reset (s : State) : offer .reset s = .next (s.setInbox s.inbox).resetEvent :=
  step_reset (s := s.setInbox (.reset :: s.inbox)) rfl

theorem offer_frame {s : State} {f : List Byte} {i : Instr} (hb : s.busy = false) (h : decode f = .ok i) :
    offer (.frame f) s = exec i (s.accept s.inbox) := by
  rw [offer, step_frame (s := s.setInbox (.frame f :: s.inbox)) (rest := s.inbox) hb rfl, runFrame_ok h]
  rfl

end Sys2Proof.Machine
end

