-- ==== Sys2Proof/Machine/Assembler.lean ====
section
/-!
DEFINITION. The assembler notation of command sequences (30_encoding.md R61, R62): what a line of text stands for, the
frame it emits, and what it does (log 20).
-/

namespace Sys2Proof.Machine

/-- A line of a command sequence (R61, R62). -/
inductive AsmLine where
  /-- Nothing but a comment. -/
  | blank
  /-- One command. -/
  | command (i : Instr)
  /-- `RESET`, which is an event and has no frame. -/
  | reset
  /-- The pseudo-command `NEW`. -/
  | construct (key : Nat) (tbl : List (List Nat))
  deriving DecidableEq, Repr

/-- The pieces of a line. -/
inductive Token where
  /-- A mnemonic or a table's name. -/
  | word (cs : List Char)
  /-- An integer. -/
  | num (n : Nat)
  /-- `[`, `]` or `,`. -/
  | punct (c : Char)
  deriving DecidableEq, Repr

/-- The value of a digit in a base. -/
def digitValue (base : Nat) (c : Char) : Option Nat :=
  let n := if c.isDigit then c.toNat - 48 else if 'a' ≤ c ∧ c ≤ 'f' then c.toNat - 87
    else if 'A' ≤ c ∧ c ≤ 'F' then c.toNat - 55 else base
  if n < base then some n else none

/-- Digits in a base after a value so far. -/
def digitsValue (base : Nat) : Nat → List Char → Option Nat
  | acc, [] => some acc
  | acc, c :: cs =>
    match digitValue base c with
    | some d => digitsValue base (acc * base + d) cs
    | none => none

/-- `<int>`: decimal, or `0x` hexadecimal, `_` as a separator (R61). -/
def numeral (cs : List Char) : Option Nat :=
  match cs.filter (· ≠ '_') with
  | '0' :: 'x' :: d :: ds => digitsValue 16 0 (d :: ds)
  | d :: ds => digitsValue 10 0 (d :: ds)
  | [] => none

/-- Put the word that has been read (in reverse) in front of the tokens after it. -/
def flushWord (cur : List Char) (after : Option (List Token)) : Option (List Token) :=
  match cur.reverse with
  | [] => after
  | c :: cs =>
    if c.isDigit then
      match numeral (c :: cs), after with
      | some n, some ts => some (.num n :: ts)
      | _, _ => none
    else after.map (.word (c :: cs) :: ·)

/-- The tokens of a line; `;` starts a comment and `->` the expected response, which are not read (R61). -/
def lexLine : List Char → List Char → Option (List Token)
  | cur, [] => flushWord cur (some [])
  | cur, c :: cs =>
    if c.isAlphanum || c == '_' then lexLine (c :: cur) cs
    else if c == ' ' || c == '\t' then flushWord cur (lexLine [] cs)
    else if c == '[' || c == ']' || c == ',' then flushWord cur ((lexLine [] cs).map (.punct c :: ·))
    else if c == ';' || (c == '-' && cs.head? == some '>') then flushWord cur (some [])
    else none

/-- What has been read of a `<table>`. -/
inductive TableState where
  | start | opened | rowOpened | cellRead | cellNext | rowRead | rowNext | closed
  deriving DecidableEq, Repr

/-- One token of a `<table>`, after some rows and the cells of the row that is open (R61). -/
def tableToken (p : TableState × List (List Nat) × List Nat) (t : Token) :
    Option (TableState × List (List Nat) × List Nat) :=
  match p.1, t with
  | .start, .punct '[' => some (.opened, [], [])
  | .opened, .punct ']' => some (.closed, [], [])
  | .opened, .punct '[' => some (.rowOpened, [], [])
  | .rowOpened, .punct ']' => some (.rowRead, p.2.1 ++ [[]], [])
  | .rowOpened, .num n => some (.cellRead, p.2.1, [n])
  | .cellRead, .punct ',' => some (.cellNext, p.2.1, p.2.2)
  | .cellNext, .num n => some (.cellRead, p.2.1, p.2.2 ++ [n])
  | .cellRead, .punct ']' => some (.rowRead, p.2.1 ++ [p.2.2], [])
  | .rowRead, .punct ',' => some (.rowNext, p.2.1, [])
  | .rowNext, .punct '[' => some (.rowOpened, p.2.1, [])
  | .rowRead, .punct ']' => some (.closed, p.2.1, [])
  | _, _ => none

/-- A `<table>`: a literal, or a name that stands for one (R61). -/
def tableOperand (names : List (List Char × List (List Nat))) (ts : List Token) : Option (List (List Nat)) :=
  match ts with
  | [.word w] => names.lookup w
  | ts =>
    match ts.foldlM tableToken (.start, [], []) with
    | some (.closed, rows, _) => some rows
    | _ => none

/-- The line some tokens make. -/
def parseLine (names : List (List Char × List (List Nat))) (ts : List Token) : Option AsmLine :=
  match ts with
  | [] => some .blank
  | [.word ['R', 'E', 'S', 'E', 'T']] => some .reset
  | [.word ['R', 'D', 'S', 'K']] => some (.command .rdsk)
  | [.word ['L', 'D', 'K', 'E', 'Y'], .num n] => some (.command (.ldkey n))
  | [.word ['E', 'N', 'C'], .num n] => some (.command (.enc n))
  | [.word ['D', 'E', 'C'], .num n] => some (.command (.dec n))
  | .word ['L', 'D', 'S', 'B', 'O', 'X'] :: ts =>
    match tableOperand names ts with
    | some tbl => some (.command (.ldsbox tbl))
    | none => none
  | .word ['N', 'E', 'W'] :: .num n :: .punct ',' :: ts =>
    match tableOperand names ts with
    | some tbl => some (.construct n tbl)
    | none => none
  | _ => none

/-- A line of text, with the tables that have names. -/
def assemble (names : List (List Char × List (List Nat))) (text : List Char) : Option AsmLine :=
  match lexLine [] text with
  | some ts => parseLine names ts
  | none => none

/-- The expansion of a line: NEW stands for three lines, every other line for itself (R62). -/
def expandLine (line : AsmLine) : List AsmLine :=
  match line with
  | .construct key tbl => [.reset, .command (.ldkey key), .command (.ldsbox tbl)]
  | .blank => [.blank]
  | .command i => [.command i]
  | .reset => [.reset]

/-- The frame a line emits: the canonical frame of its command, if a frame carries it (R61). A reset has no frame, and
NEW emits none itself: its lines do (`expandLine`). -/
def lineFrame (line : AsmLine) : Option (List Byte) :=
  match line with
  | .command i => if wellFormed i then some (encode i) else none
  | .blank => none
  | .reset => none
  | .construct _ _ => none

/-- What a line does: nothing, one command, the reset event, or NEW, which stops at the first line of its expansion whose
response is not OK (R61, R62). -/
def runLine (line : AsmLine) (s : State) : Host.Outcome State Fault Refusal :=
  match line with
  | .blank => .next s
  | .command i => offerCommand i s
  | .reset => offer .reset s
  | .construct key tbl => construct key tbl s

end Sys2Proof.Machine
end

