-- ==== Sys2Proof/Tests/Slice0.lean ====
section
/-!
SUPPORT. Tests of the model against the words and vectors of 95_test_vectors.md, the well-formedness smoke test, and a
witness for every statement that has hypotheses.
-/

namespace Sys2Proof.Tests
open Sys2Proof.Machine

set_option Elab.async false

/-! ### Helpers -/

/-- The state an outcome answers, the reset state if it answers none. -/
def stateOf (o : Host.Outcome State Fault Refusal) : State :=
  match o with
  | .next t => t
  | _ => State.reset

/-- An outcome is a next state. -/
def completes (o : Host.Outcome State Fault Refusal) : Bool :=
  match o with
  | .next _ => true
  | _ => false

theorem next_of_completes {o : Host.Outcome State Fault Refusal} (h : completes o = true) : o = .next (stateOf o) := by
  cases o with
  | next _ => rfl
  | fault _ => cases h
  | refused _ => cases h

/-- The last response frame of an outcome. -/
def response (o : Host.Outcome State Fault Refusal) : List Byte := ((stateOf o).sent.getLast?).getD []

/-- The table with the cell of row `i`, column `v` at `f i v`. -/
def table (f : Nat → Nat → Nat) : List (List Nat) := (List.range 8).map fun i => (List.range 16).map (f i)

/-- T_ID (95 part 0). -/
def tId : List (List Nat) := table fun _ v => v
/-- T_AFF (95 part 0). -/
def tAff : List (List Nat) := table fun i v => (5 * v + i) % 16
/-- T_AFF with `tbl[2][5] = c`: 19 in V6.9 and P3. -/
def tBad (c : Nat) : List (List Nat) := table fun i v => if i = 2 ∧ v = 5 then c else (5 * v + i) % 16

/-- KEY_STEP (95 part 0). -/
def keyStep : Nat := 0x8888888877777777666666665555555544444444333333332222222211111111
/-- KEY_MIX (95 part 0). -/
def keyMixed : Nat := 0x0123456789ABCDEFFEDCBA987654321000112233445566778899AABBCCDDEEFF
/-- KEY_PAL (95 part 0). -/
def keyPal : Nat := 0xA1B2C3D401020304DEADBEEF0F1E2D3C0F1E2D3CDEADBEEF01020304A1B2C3D4

/-- A core with a key, and no table. -/
def keyed (key : Nat) : State :=
  { State.reset with key := BitVec.ofNat 256 key, k := derive (BitVec.ofNat 256 key), kv := true, l := 0, r := 0 }

/-- The 128 cells of a table, written as memory directly. -/
def cells (f : Nat → Nat → Nat) : Memory := (List.range 128).map fun a => (a, BitVec.ofNat 4 (f (a / 16) (a % 16)))

/-- A core with a key and a table. -/
def configured (key : Nat) (f : Nat → Nat → Nat) : State := { keyed key with sbox := cells f, sv := true }

/-- A core with a table, and no key. -/
def tabled : State := { State.reset with sbox := cells fun i v => (5 * v + i) % 16, sv := true }

/-- KEY_MIX and T_AFF. -/
def ready : State := configured keyMixed fun i v => (5 * v + i) % 16

/-- A state with these host actions next. -/
def offered (acts : List HostAction) (s : State) : State := { s with inbox := acts }

/-- A state with an ENC in flight and `RND = j`. -/
def flying (j : BitVec 6) : State :=
  { ready with busy := true, mode := .enc, rnd := j, l := 0xE0F2023F, r := 0xF2023FEE }

/-! ### Well-formedness: an ill-formed term for each check, and the largest well-formed one -/

theorem test_wf_key : wellFormed (.ldkey (256 ^ 255)) = false ∧ wellFormed (.ldkey (256 ^ 255 - 1)) = true := by
  decide +kernel
theorem test_wf_block : wellFormed (.enc (256 ^ 255)) = false ∧ wellFormed (.dec (256 ^ 255)) = false := by
  decide +kernel
theorem test_wf_rows : wellFormed (.ldsbox (List.replicate 256 [])) = false ∧
    wellFormed (.ldsbox (List.replicate 255 [])) = true := by decide +kernel
theorem test_wf_columns : wellFormed (.ldsbox [List.replicate 256 0]) = false ∧
    wellFormed (.ldsbox [List.replicate 255 0]) = true := by decide +kernel
theorem test_wf_cell : wellFormed (.ldsbox [[256]]) = false ∧ wellFormed (.ldsbox [[255]]) = true := by decide
theorem test_wf_rdsk : wellFormed .rdsk = true := by decide

/-! ### Decoding: words of 95 part 7 -/

/-- `LDKEY KEY_MIX` (V7.1). -/
def frameKeyMix : List Byte :=
  [0x01, 0x20, 0xFF, 0xEE, 0xDD, 0xCC, 0xBB, 0xAA, 0x99, 0x88, 0x77, 0x66, 0x55, 0x44, 0x33, 0x22,
   0x11, 0x00, 0x10, 0x32, 0x54, 0x76, 0x98, 0xBA, 0xDC, 0xFE, 0xEF, 0xCD, 0xAB, 0x89, 0x67, 0x45, 0x23, 0x01]

/-- `LDSBOX T_AFF` (V7.1), 138 bytes. -/
def frameAff : List Byte :=
  [0x02, 0x08] ++
  [0x10, 0x00, 0x05, 0x0A, 0x0F, 0x04, 0x09, 0x0E, 0x03, 0x08, 0x0D, 0x02, 0x07, 0x0C, 0x01, 0x06, 0x0B] ++
  [0x10, 0x01, 0x06, 0x0B, 0x00, 0x05, 0x0A, 0x0F, 0x04, 0x09, 0x0E, 0x03, 0x08, 0x0D, 0x02, 0x07, 0x0C] ++
  [0x10, 0x02, 0x07, 0x0C, 0x01, 0x06, 0x0B, 0x00, 0x05, 0x0A, 0x0F, 0x04, 0x09, 0x0E, 0x03, 0x08, 0x0D] ++
  [0x10, 0x03, 0x08, 0x0D, 0x02, 0x07, 0x0C, 0x01, 0x06, 0x0B, 0x00, 0x05, 0x0A, 0x0F, 0x04, 0x09, 0x0E] ++
  [0x10, 0x04, 0x09, 0x0E, 0x03, 0x08, 0x0D, 0x02, 0x07, 0x0C, 0x01, 0x06, 0x0B, 0x00, 0x05, 0x0A, 0x0F] ++
  [0x10, 0x05, 0x0A, 0x0F, 0x04, 0x09, 0x0E, 0x03, 0x08, 0x0D, 0x02, 0x07, 0x0C, 0x01, 0x06, 0x0B, 0x00] ++
  [0x10, 0x06, 0x0B, 0x00, 0x05, 0x0A, 0x0F, 0x04, 0x09, 0x0E, 0x03, 0x08, 0x0D, 0x02, 0x07, 0x0C, 0x01] ++
  [0x10, 0x07, 0x0C, 0x01, 0x06, 0x0B, 0x00, 0x05, 0x0A, 0x0F, 0x04, 0x09, 0x0E, 0x03, 0x08, 0x0D, 0x02]

theorem test_decode_ldkey : decode frameKeyMix = .ok (.ldkey keyMixed) ∧ encode (.ldkey keyMixed) = frameKeyMix := by
  decide +kernel
theorem test_decode_ldsbox : decode frameAff = .ok (.ldsbox tAff) ∧ encode (.ldsbox tAff) = frameAff := by
  decide +kernel
theorem test_decode_enc :
    decode [0x03, 0x08, 0xEE, 0x3F, 0x02, 0xF2, 0x3F, 0x02, 0xF2, 0xE0] = .ok (.enc 0xE0F2023FF2023FEE) ∧
    encode (.enc 0xE0F2023FF2023FEE) = [0x03, 0x08, 0xEE, 0x3F, 0x02, 0xF2, 0x3F, 0x02, 0xF2, 0xE0] := by
  decide +kernel
theorem test_decode_dec :
    decode [0x04, 0x08, 0x2F, 0x53, 0x1D, 0x5F, 0x7F, 0x8A, 0x53, 0xF5] = .ok (.dec 0xF5538A7F5F1D532F) ∧
    encode (.dec 0xF5538A7F5F1D532F) = [0x04, 0x08, 0x2F, 0x53, 0x1D, 0x5F, 0x7F, 0x8A, 0x53, 0xF5] := by
  decide +kernel
theorem test_decode_rdsk : decode [0x05] = .ok .rdsk ∧ encode .rdsk = [0x05] := by decide

/-- V7.1: the canonical frames of `ENC 2^64` and `LDKEY 2^256` have LEN 9 and 33. -/
theorem test_encode_over : encode (.enc (2 ^ 64)) = [0x03, 0x09, 0, 0, 0, 0, 0, 0, 0, 0, 1] ∧
    encode (.ldkey (2 ^ 256)) = [0x01, 0x21] ++ List.replicate 32 0 ++ [0x01] := by decide +kernel

/-- V7.3: frames that are not canonical. -/
theorem test_decode_any_length :
    decode [0x03, 0x00] = .ok (.enc 0) ∧ decode [0x03, 0x01, 0x05] = .ok (.enc 5) ∧
    decode ([0x03, 0xFF, 0x05] ++ List.replicate 254 0) = .ok (.enc 5) ∧
    decode [0x03, 0x09, 0, 0, 0, 0, 0, 0, 0, 0, 1] = .ok (.enc (2 ^ 64)) ∧
    decode [0x01, 0x01, 0x07] = .ok (.ldkey 7) := by decide +kernel

/-- V7.4: malformed frames. -/
theorem test_decode_malformed :
    [[], [0x05, 0x00], [0x03], [0x03, 0x08, 1, 2, 3], [0x03, 0x01, 1, 2], [0x02], [0x02, 0x00, 0x00],
      (encode (.ldsbox tId)).take 100, encode (.ldsbox tId) ++ [0x00]].map decode =
      List.replicate 9 (.error .frameError) ∧
    [[0x00], [0x06, 1, 2, 3], [0xFF], [0x07, 0x09, 0x00, 0x00]].map decode =
      List.replicate 4 (.error .badCommand) ∧
    decode [0x02, 0x00] = .ok (.ldsbox []) := by decide +kernel

/-- opcode_table.json's rows as numbers: 8 bits each, the rest zeros. -/
theorem test_table_words :
    [0x01, 0x02, 0x03, 0x04, 0x05, 0x00].map (decodeTableWord 8) =
      [some (.ldkey 0), some (.ldsbox []), some (.enc 0), some (.dec 0), some .rdsk, none] := by decide

theorem test_fetch_word :
    (stateOf (step (State.reset.withFetchWord 24 0x070101))).k[0] = 7 ∧
    response (step (State.reset.withFetchWord 8 0x05)) = [0x03] := by decide +kernel

/-! ### The round: 95 part 3 -/

theorem test_rol11 : [0x80000000, 0x00200000, 0xDEADBEEF, 0x12345678].map rol11 =
    [0x00000400, 0x00000001, 0x6DF77EF5, 0xA2B3C091] := by decide
theorem test_subst : subst ready.sbox 0x12345678 = some 0xC048C048 ∧ subst ready.sbox 0xF0000000 = some 0x26543210 := by
  decide +kernel
theorem test_mix : mix ready.sbox (0x12345678, 0x9ABCDEF0) 0x0F1E2D3C = some (0x9ABCDEF0, 0xE53AB403) := by
  decide +kernel
/-- 41 R83 (d): rows 3 and 4 of V3.3. -/
theorem test_mix_key : mix ready.sbox (0, 0) 0x80000000 = some (0, 0xA19087B2) := by decide +kernel

/-! ### The commands, at most two each -/

/-- V2.3: `K[0]` is the last 8 hex digits of the key. -/
theorem test_ldkey : (stateOf (exec (.ldkey keyMixed) State.reset)).k =
    #v[0xCCDDEEFF, 0x8899AABB, 0x44556677, 0x00112233, 0x76543210, 0xFEDCBA98, 0x89ABCDEF, 0x01234567] := by
  decide +kernel
/-- V2.12: a failed load keeps the old key. -/
theorem test_ldkey_over : response (exec (.ldkey (2 ^ 256)) ready) = [0x02] ∧
    (stateOf (exec (.ldkey (2 ^ 256)) ready)).key = 0x0123456789ABCDEFFEDCBA987654321000112233445566778899AABBCCDDEEFF := by
  decide +kernel

/-- 44 R114: cell for cell, in rising order of address. -/
theorem test_ldsbox : (stateOf (exec (.ldsbox tAff) State.reset)).sbox = cells fun i v => (5 * v + i) % 16 := by
  decide +kernel
/-- V6.9, V6.12: a cell 19 is a RangeError, seven rows with a cell 19 a ShapeError, and the table that was loaded stays. -/
theorem test_ldsbox_errors : response (exec (.ldsbox (tBad 19)) ready) = [0x02] ∧
    response (exec (.ldsbox ((tBad 19).take 7)) ready) = [0x01] ∧
    (stateOf (exec (.ldsbox (tBad 19)) ready)).sbox.read (16 * 2 + 5) = some 0xB := by decide +kernel

/-- V4.3. -/
theorem test_enc : response (exec (.enc 0xE0F2023FF2023FEE) (configured keyStep fun _ v => v)) =
    [0x00, 0x36, 0x92, 0x18, 0xF9, 0x2C, 0xEE, 0x4A, 0xFB] := by decide +kernel
/-- V8.1, V5.3: NotReady before RangeError; `2^64` is too wide. -/
theorem test_enc_errors : response (exec (.enc (2 ^ 64)) State.reset) = [0x03] ∧
    response (exec (.enc (2 ^ 64)) ready) = [0x02] := by decide +kernel

/-- V4.5. -/
theorem test_dec : response (exec (.dec 0xF5538A7F5F1D532F) ready) =
    [0x00, 0xEE, 0x3F, 0x02, 0xF2, 0x3F, 0x02, 0xF2, 0xE0] := by decide +kernel
/-- V4.4, KEY_MIX: DEC of a block that is no ciphertext. -/
theorem test_dec_plain : response (exec (.dec 0xE0F2023FF2023FEE) ready) =
    [0x00, 0x5F, 0x26, 0x68, 0x6F, 0x90, 0xFD, 0x89, 0xDE] := by decide +kernel

/-- V7.2: the data bytes are bytes 2..33 of the LDKEY frame. -/
theorem test_rdsk : response (exec .rdsk (keyed keyMixed)) = 0x00 :: frameKeyMix.drop 2 := by decide +kernel
/-- V8.6: a table is not a key. -/
theorem test_rdsk_not_ready : response (exec .rdsk tabled) = [0x03] := by decide +kernel

/-! ### Assembler lines (30_encoding.md R61, R62) -/

/-- The digits, separators, comments and responses of a line. -/
theorem test_assemble_int :
    assemble [] ['E', 'N', 'C', ' ', ' ', '0', 'x', 'F', '_', 'e', ' ', '-', '>', ' ', 'O', 'K'] =
      some (.command (.enc 0xFE)) ∧
    assemble [] ['D', 'E', 'C', ' ', '1', '0', ';', 'x'] = some (.command (.dec 10)) ∧
    assemble [] ['R', 'E', 'S', 'E', 'T'] = some .reset ∧ assemble [] [' ', ';', ' ', '?'] = some .blank := by
  decide +kernel

/-- `[]` is the table of no rows, `[[]]` the table of one empty row; a name stands for its literal. -/
theorem test_assemble_table :
    assemble [] ['L', 'D', 'S', 'B', 'O', 'X', ' ', '[', ']'] = some (.command (.ldsbox [])) ∧
    assemble [] ['L', 'D', 'S', 'B', 'O', 'X', ' ', '[', '[', ']', ']'] = some (.command (.ldsbox [[]])) ∧
    assemble [] ['L', 'D', 'S', 'B', 'O', 'X', ' ', '[', '[', '1', ',', ' ', '2', ']', ',', '[', '3', ']', ']'] =
      some (.command (.ldsbox [[1, 2], [3]])) ∧
    assemble [(['T', '_', 'I', 'D'], tId)] ['N', 'E', 'W', ' ', '7', ',', ' ', 'T', '_', 'I', 'D'] =
      some (.construct 7 tId) := by decide +kernel

/-- A command line emits its canonical frame, if it has one; NEW stands for its three lines. -/
theorem test_line_frame :
    lineFrame (.command (.enc 5)) = some [0x03, 0x08, 0x05, 0, 0, 0, 0, 0, 0, 0] ∧
    lineFrame (.command (.ldsbox [[256]])) = none ∧ lineFrame .reset = none ∧
    expandLine (.construct 7 []) = [.reset, .command (.ldkey 7), .command (.ldsbox [])] := by decide +kernel

/-- 44 R117 over operands no frame carries: RangeError for a cell 256, and for a key `2^2040`, after which the table is
not offered. -/
theorem test_new_uncarried :
    (stateOf (runLine (.construct 7 (tBad 256)) (flying 3))).sent = [[0x00], [0x02]] ∧
    (stateOf (runLine (.construct 7 (tBad 256)) (flying 3))).sv = false ∧
    (stateOf (runLine (.construct (2 ^ 2040) tId) ready)).sent = [[0x02]] := by decide +kernel

/-- 20_memory.md R40: a command waits for the response of the one in flight (the finish of V4.3's halves), then runs. -/
theorem test_line_waits : (stateOf (runLine (.command .rdsk) { flying 32 with kv := false })).sent =
    [[0x00, 0x3F, 0x02, 0xF2, 0xE0, 0xEE, 0x3F, 0x02, 0xF2], [0x03]] := by decide +kernel

/-! ### Witnesses: concrete states and operands that meet a statement's hypotheses together -/

theorem ready_configured : Configured ready := ⟨by decide +kernel, by decide +kernel, by decide +kernel⟩

theorem ready_inv (acts : List HostAction) : Inv (offered acts ready) :=
  ⟨show ready.sbox.wf by decide +kernel, fun _ => show ready.k = derive ready.key by decide +kernel,
   fun _ => ready_configured.cells, show ready.rnd.toNat ≤ Config.nRounds by decide +kernel,
   fun h => absurd (show ready.busy = true from h) (by decide +kernel)⟩

theorem flying_inv {j : BitVec 6} (h : j.toNat ≤ Config.nRounds) (acts : List HostAction) :
    Inv (offered acts (flying j)) :=
  ⟨(ready_inv []).memory, (ready_inv []).subkeys, (ready_inv []).table, h,
   fun _ => ⟨ready_configured.kv, ready_configured.sv⟩⟩

theorem witness_DecodeEncodeAgree :
    WellFormed (.ldkey (256 ^ 255 - 1)) ∧ WellFormed (.enc (256 ^ 255 - 1)) ∧ WellFormed (.dec (256 ^ 255 - 1)) ∧
    WellFormed (.ldsbox (List.replicate 255 [255])) ∧ WellFormed (.ldsbox []) ∧ WellFormed .rdsk :=
  ⟨by show _ < _; decide +kernel, by show _ < _; decide +kernel, by show _ < _; decide +kernel,
   by show tableCarried _; decide +kernel, by show tableCarried _; decide, trivial⟩

theorem witness_IntegerFramesCarryTheValue :
    ((0x01 : Byte) = 0x01 ∧ (Instr.ldkey : Nat → Instr) = .ldkey) ∧
    ((0x03 : Byte) = 0x03 ∧ (Instr.enc : Nat → Instr) = .enc) ∧
    ((0x04 : Byte) = 0x04 ∧ (Instr.dec : Nat → Instr) = .dec) ∧
    (List.replicate 255 (0xFF : Byte)).length = (0xFF : Byte).toNat ∧ ([] : List Byte).length ≠ (0x01 : Byte).toNat :=
  ⟨⟨rfl, rfl⟩, ⟨rfl, rfl⟩, ⟨rfl, rfl⟩, by decide +kernel, by decide⟩

theorem witness_TableFramesCarryTheTable : tableCarried (List.replicate 255 [255]) ∧ tableCarried [] := by
  decide +kernel

theorem witness_OpcodeByteSelectsTheCommand :
    decode (0x01 :: [0x00]) = .ok (.ldkey 0) ∧ decode (0x02 :: [0x00]) = .ok (.ldsbox []) ∧
    decode (0x03 :: [0x01, 0xFF]) = .ok (.enc 255) ∧ decode (0x04 :: [0x01, 0xFF]) = .ok (.dec 255) ∧
    decode (0x05 :: []) = .ok .rdsk := by decide

/-- One frame for each clause; the state is any. -/
theorem witness_ReservedAndMalformedFrames :
    (∃ op body, [(0x00 : Byte)] = op :: body ∧ (op = 0x00 ∨ 0x06 ≤ op)) ∧
    (∃ op body, [(0x06 : Byte), 1, 2, 3] = op :: body ∧ (op = 0x00 ∨ 0x06 ≤ op)) ∧
    (∃ op body, [(0xFF : Byte)] = op :: body ∧ (op = 0x00 ∨ 0x06 ≤ op)) ∧
    (∃ b bs, [(0x05 : Byte), 0x00] = 0x05 :: b :: bs) ∧
    (∃ op ∈ [(0x01 : Byte), 0x03, 0x04], [(0x03 : Byte)] = [op]) ∧
    (∃ op ∈ [(0x01 : Byte), 0x03, 0x04], ∃ len val,
      [(0x04 : Byte), 0x01, 1, 2] = op :: len :: val ∧ val.length ≠ len.toNat) ∧
    (∃ body, [(0x02 : Byte)] = 0x02 :: body ∧ ¬∃ tbl, tableCarried tbl ∧ body = encodeTable tbl) ∧
    (∃ body, [(0x02 : Byte), 0x00, 0x00] = 0x02 :: body ∧ ¬∃ tbl, tableCarried tbl ∧ body = encodeTable tbl) := by
  refine ⟨⟨_, _, rfl, by decide⟩, ⟨_, _, rfl, by decide⟩, ⟨_, _, rfl, by decide⟩, ⟨_, _, rfl⟩,
    ⟨0x03, by decide, rfl⟩, ⟨0x04, by decide, _, _, rfl, by decide⟩, ⟨[], rfl, ?_⟩, ⟨[0, 0], rfl, ?_⟩⟩
  · rintro ⟨tbl, -, h⟩
    cases h
  · rintro ⟨tbl, hc, h⟩
    obtain ⟨h1, h2⟩ := List.cons.inj h
    have h3 := congrArg BitVec.toNat h1
    rw [BitVec.toNat_ofNat, Nat.mod_eq_of_lt (by have := hc.1; omega)] at h3
    obtain rfl := List.eq_nil_of_length_eq_zero h3.symm
    cases h2

theorem witness_StepRunsDecodedCommand :
    decode frameKeyMix = .ok (.ldkey keyMixed) ∧ decode frameAff = .ok (.ldsbox tAff) ∧
    (offered [.frame frameAff] State.reset).busy = false ∧
    (offered [.frame frameAff] State.reset).inbox = .frame frameAff :: [] :=
  ⟨test_decode_ldkey.1, test_decode_ldsbox.1, rfl, rfl⟩

theorem witness_PlacedWordRuns : decodeTableWord 24 0xFF0103 = some (.enc 255) ∧ decodeTableWord 8 0x05 = some .rdsk := by
  decide

theorem witness_IdleCoreWaits : State.reset.busy = false ∧ State.reset.inbox = [] := ⟨rfl, rfl⟩

theorem witness_ResetEventClears :
    (offered [.reset] (flying 7)).inbox = .reset :: [] ∧
    ((offered [.resetDuring frameKeyMix [[0x05]]] ready).busy = false ∧
      (offered [.resetDuring frameKeyMix [[0x05]]] ready).inbox = .resetDuring frameKeyMix [[0x05]] :: []) :=
  ⟨rfl, show ready.busy = false by decide +kernel, rfl⟩

theorem witness_AfterResetNotReady :
    (offered [.reset, .frame [0x05]] (flying 31)).inbox = .reset :: .frame [0x05] :: [] ∧
    decode [0x05] = .ok .rdsk ∧ decode [0x03, 0x01, 0x05] = .ok (.enc 5) ∧ decode [0x04, 0x00] = .ok (.dec 0) :=
  ⟨rfl, by decide, by decide, by decide⟩

theorem witness_OneResponsePerFrame :
    (ready.sv = true → ready.sbox.loaded) ∧ (State.reset.sv = true → State.reset.sbox.loaded) :=
  ⟨fun _ => ready_configured.cells, fun h => (nomatch h)⟩

/-- A round, the last round, and the finish. -/
theorem witness_InFlightHoldsTheRest :
    (flying 0).busy = true ∧ (∀ rest, (flying 0).inbox ≠ .reset :: rest) ∧
    completes (step (flying 0)) = true ∧ completes (step (flying 31)) = true ∧ completes (step (flying 32)) = true :=
  ⟨rfl, fun rest h => absurd (show ready.inbox = _ from h)
      (by rw [show ready.inbox = [] by decide +kernel]; exact fun h => nomatch h),
    by decide +kernel, by decide +kernel, by decide +kernel⟩

theorem witness_LdkeyLoads : 2 ^ 256 - 1 < 2 ^ 256 ∧ 0 < 2 ^ 256 := by decide

theorem witness_LdsboxStoresCellForCell :
    tAff.length = 8 ∧ (∀ row ∈ tAff, row.length = 16 ∧ ∀ c ∈ row, c ≤ 15) ∧ ∃ row ∈ tAff, 15 ∈ row := by decide +kernel

/-- EncRunsItsSchedule, DecRunsItsSchedule, RdskReadsTheSubkeys, MixFormula, SubstNibbleByNibble. -/
theorem witness_Configured : Configured ready ∧ ready.kv = true ∧ ready.sbox.loaded :=
  ⟨ready_configured, ready_configured.kv, ready_configured.cells⟩

theorem witness_ShapeErrorRaised :
    ¬(([] : List (List Nat)).length = 8 ∧ ∀ row ∈ ([] : List (List Nat)), row.length = 16) ∧
    ¬((table fun _ _ => 0).tail.length = 8 ∧ ∀ row ∈ (table fun _ _ => 0).tail, row.length = 16) ∧
    ¬((List.replicate 8 (List.replicate 15 0)).length = 8 ∧
      ∀ row ∈ List.replicate 8 (List.replicate 15 0), row.length = 16) ∧
    ∃ t, exec (.ldsbox []) State.reset = .next t ∧ t.sent = State.reset.sent ++ [[0x01]] :=
  ⟨by decide, by decide +kernel, by decide +kernel, _, rfl, rfl⟩

theorem witness_RangeErrorRaised :
    ((tBad 16).length = 8 ∧ (∀ row ∈ tBad 16, row.length = 16) ∧ ∃ row ∈ tBad 16, ∃ c ∈ row, 15 < c) ∧
    (ready.kv = true ∧ ready.sv = true ∧ 2 ^ 64 - 1 < 2 ^ 64) ∧ 2 ^ 256 - 1 < 2 ^ 256 :=
  ⟨by decide +kernel, ⟨ready_configured.kv, ready_configured.sv, by decide⟩, by decide⟩

theorem witness_NotReadyRaised :
    ((keyed keyMixed).kv = true ∧ (keyed keyMixed).sv = false) ∧
    (tabled.kv = false ∧ tabled.sv = true) ∧ State.reset.kv = false := by decide +kernel

theorem witness_ErrorWritesNothing :
    ∃ t, runFrame [0x07] ready = .next t ∧ t.sent = ready.sent ++ [0x04 :: []] ∧ (0x04 : Byte) ≠ 0x00 := by
  refine ⟨_, next_of_completes (by decide +kernel), by decide +kernel, by decide⟩

/-- A state with a table, one without, and frames for the clauses: empty, reserved, malformed, each command. -/
theorem witness_ErrorPriority :
    (ready.sv = true → ready.sbox.loaded) ∧ (State.reset.sv = true → State.reset.sbox.loaded) ∧
    [[], [0x00], [0x06], [0x05, 0x00], [0x03, 0x00], [0x04, 0x00], [0x05], [0x02, 0x00], [0x01, 0x00]].map decode =
      [.error .frameError, .error .badCommand, .error .badCommand, .error .frameError, .ok (.enc 0), .ok (.dec 0),
       .ok .rdsk, .ok (.ldsbox []), .ok (.ldkey 0)] :=
  ⟨fun _ => ready_configured.cells, fun h => (nomatch h), by decide⟩

theorem witness_CommandFrame :
    completes (exec (.ldkey 1) ready) = true ∧ completes (exec (.ldsbox tId) ready) = true ∧
    completes (exec (.enc 1) ready) = true ∧ completes (exec (.dec 1) ready) = true ∧
    completes (exec .rdsk ready) = true := by decide +kernel

theorem witness_RdskDataIsTheKey : Inv (offered [] ready) ∧ (offered [] ready).kv = true :=
  ⟨ready_inv _, ready_configured.kv⟩

theorem witness_MixUndoesItself : ∃ q, mix ready.sbox (0x12345678, 0x9ABCDEF0) 0x0F1E2D3C = some q := ⟨_, test_mix⟩

/-- DecryptUndoesEncrypt, EncryptUndoesDecrypt: a second state with the same configuration that an ENC has run in. -/
theorem witness_RoundTrips : Configured ready ∧ SameConfig ready (stateOf (exec (.enc 5) ready)) :=
  ⟨ready_configured, by decide +kernel, by decide +kernel, by decide +kernel, by decide +kernel, by decide +kernel⟩

theorem witness_PalindromicKeyEncIsDec :
    Configured (configured keyPal fun i v => (5 * v + i) % 16) ∧ ∀ i : Fin 8, (configured keyPal fun i v => (5 * v + i) % 16).k[i] = (configured keyPal fun i v => (5 * v + i) % 16).k[i.rev] :=
  ⟨⟨by decide +kernel, by decide +kernel, by decide +kernel⟩, by decide +kernel⟩

theorem witness_ConstantRowsExchangeHalves :
    (configured keyMixed fun i _ => i).kv = true ∧ (configured keyMixed fun i _ => i).sv = true ∧
    ∀ i < 8, ∃ c, ∀ v < 16, (configured keyMixed fun i _ => i).sbox.read (16 * i + v) = some c :=
  ⟨by decide +kernel, by decide +kernel, fun i hi => ⟨BitVec.ofNat 4 i, by revert i; decide +kernel⟩⟩

theorem witness_ResultDependsOnConfigAlone :
    (flying 3).k = ready.k ∧ (flying 3).sbox = ready.sbox ∧ (flying 3).kv = ready.kv ∧ (flying 3).sv = ready.sv ∧
    completes (exec (.enc 9) ready) = true ∧ completes (exec (.dec 9) ready) = true :=
  ⟨rfl, rfl, rfl, rfl, by decide +kernel, by decide +kernel⟩

/-- SteppedAgreesWithAtomic, StartTransition: an ENC and a DEC, with another command held behind. -/
theorem witness_SteppedAgreesWithAtomic :
    let s := offered [.stepped [0x03, 0x01, 0x05], .frame [0x05]] ready
    s.busy = false ∧ s.inbox = .stepped [0x03, 0x01, 0x05] :: [.frame [0x05]] ∧
    (∀ as, [HostAction.frame [0x05]] ≠ .reset :: as) ∧ Configured s ∧ 5 < 2 ^ 64 ∧
    decode [0x03, 0x01, 0x05] = .ok (.enc 5) ∧ decode [0x04, 0x01, 0x05] = .ok (.dec 5) :=
  ⟨show ready.busy = false by decide +kernel, rfl, fun _ h => (nomatch h),
   ⟨ready_configured.kv, ready_configured.sv, ready_configured.cells⟩, by decide, by decide, by decide⟩

/-- A frame that brings nothing in flight: LDKEY 0, and an over-wide block. -/
theorem witness_SteppedOtherwiseAtomic :
    (∃ t, step (offered [.stepped [0x01, 0x00]] ready) = .next t ∧ t.busy = false) ∧
    ∃ t, step (offered [.stepped (encode (.enc (2 ^ 64)))] ready) = .next t ∧ t.busy = false :=
  ⟨⟨_, next_of_completes (by decide +kernel), by decide +kernel⟩,
   ⟨_, next_of_completes (by decide +kernel), by decide +kernel⟩⟩

/-- The first round, the last round, and the finish. -/
theorem witness_InFlightCommandAnswers :
    Inv (offered [] (flying 0)) ∧ Inv (offered [] (flying 31)) ∧ Inv (offered [.frame []] (flying 32)) ∧
    (flying 0).busy = true ∧ (∀ rest, (offered [] (flying 0)).inbox ≠ .reset :: rest) ∧
    ∀ rest, (offered [.frame []] (flying 32)).inbox ≠ .reset :: rest :=
  ⟨flying_inv (by decide) _, flying_inv (by decide) _, flying_inv (by decide) _, rfl,
   fun _ h => (nomatch h), fun _ h => (nomatch h)⟩

/-- The last round on a configured core, without a key, and without a table. -/
theorem witness_RoundTransition :
    (offered [] (flying 31)).busy = true ∧ (∀ rest, (offered [] (flying 31)).inbox ≠ .reset :: rest) ∧
    (offered [] (flying 31)).rnd.toNat < 32 ∧ Configured (offered [] (flying 31)) ∧
    completes (step (offered [] (flying 31))) = true ∧
    completes (step { offered [] (flying 31) with kv := false }) = false ∧
    completes (step { offered [] (flying 31) with sv := false }) = false :=
  ⟨rfl, fun _ h => (nomatch h), by decide, ⟨ready_configured.kv, ready_configured.sv, ready_configured.cells⟩,
   by decide +kernel, by decide +kernel, by decide +kernel⟩

/-- StepKeepsLegal and LegalStatesAnswer: a legal configured core with a command, and one in flight. -/
theorem witness_StepKeepsLegal :
    (Inv (offered [.frame [0x03, 0x00]] ready) ∧ completes (step (offered [.frame [0x03, 0x00]] ready)) = true) ∧
    Inv (offered [.reset] (flying 5)) ∧ completes (step (offered [.reset] (flying 5))) = true :=
  ⟨⟨ready_inv _, by decide +kernel⟩, flying_inv (by decide) _, by decide +kernel⟩

/-- Both flags go up, and both go down. -/
theorem witness_ValidFlagsChangeOnly :
    (stateOf (step (offered [.frame frameKeyMix] tabled))).kv ≠ tabled.kv ∧
    (stateOf (step (offered [.frame frameAff] (keyed 1)))).sv ≠ (keyed 1).sv ∧
    (stateOf (step (offered [.reset] ready))).kv ≠ ready.kv ∧
    (stateOf (step (offered [.resetDuring [0x05] []] ready))).sv ≠ ready.sv := by decide +kernel

theorem witness_NoKeyWithoutLdkey :
    (offered [.frame [0x05], .reset] tabled).kv = false ∧
    (∀ f key, HostAction.frame f ∈ (offered [.frame [0x05], .reset] tabled).inbox ∨
      HostAction.stepped f ∈ (offered [.frame [0x05], .reset] tabled).inbox → decode f ≠ .ok (.ldkey key)) ∧
    completes (core.run 3 (offered [.frame [0x05], .reset] tabled)) = true := by
  refine ⟨by decide +kernel, fun f key h => ?_, by decide +kernel⟩
  simp only [offered, List.mem_cons, List.not_mem_nil, HostAction.frame.injEq, reduceCtorEq, or_false] at h
  subst h
  exact fun h => nomatch h

theorem witness_CanonicalFrameIsItsCommand :
    WellFormed (.ldkey (256 ^ 255 - 1)) ∧ WellFormed (.ldsbox tAff) ∧ ready.busy = false :=
  ⟨by show _ < _; decide +kernel, by show tableCarried _; decide +kernel, rfl⟩

/-- A table for each clause; the keys are the largest that loads and the least that does not. -/
theorem witness_NewConstructsOrNotReady :
    ¬2 ^ 256 ≤ 2 ^ 256 - 1 ∧ 2 ^ 256 ≤ 2 ^ 256 ∧ shapeOK [] = false ∧
    (shapeOK (tBad 16) = true ∧ rangeOK (tBad 16) = false) ∧ (shapeOK (tBad 256) = true ∧ rangeOK (tBad 256) = false) ∧
    shapeOK tAff = true ∧ rangeOK tAff = true :=
  ⟨by decide, by decide, by decide, by decide +kernel, by decide +kernel, by decide +kernel, by decide +kernel⟩

end Sys2Proof.Tests
end

section
/-!
PROOFS. The state: the reset values are legal, what a command leaves unchanged, and who changes the valid flags.
-/

namespace Sys2Proof.Machine

/-! ### The state after reset -/

/-- A core with every flag cleared, no round counted and no cell stored is legal, whatever its other registers hold. -/
theorem inv_of_cleared {s : State} (hkv : s.kv = false) (hsv : s.sv = false) (hbusy : s.busy = false)
    (hrnd : s.rnd = 0) (hsbox : s.sbox = []) : Inv s where
  memory := by simp [hsbox, Memory.wf]
  subkeys h := by simp [hkv] at h
  table h := by simp [hsv] at h
  rounds := by simp [hrnd]
  inFlight h := by simp [hbusy] at h

/-- Settles O45: reset clears the flags and `RND` and stores no cell, so no clause speaks of a free value. -/
theorem resetIsLegal : Obligations.ResetIsLegal :=
  inv_of_cleared rfl rfl rfl rfl rfl

/-! ### What a command can do -/

/-- Every command that answers raises an error, or does the writes of its own row of the access matrix
(10_state.md R29). The guard of each error is in the lemma of its command. -/
theorem exec_next {i : Instr} {s t : State} (h : exec i s = .next t) :
    (∃ e, t = s.raise e) ∨
    (∃ key, i = .ldkey key ∧ key < 2 ^ 256 ∧
      t = ((s.writeKey (BitVec.ofNat 256 key) (derive (BitVec.ofNat 256 key))).setKV).respond .ok) ∨
    (∃ tbl, i = .ldsbox tbl ∧ shapeOK tbl = true ∧ rangeOK tbl = true ∧
      t = ((s.writeTable (storeTable tbl s.sbox)).setSV).respond .ok) ∨
    (∃ d b lr, (d = .enc ∧ i = .enc b ∨ d = .dec ∧ i = .dec b) ∧
      t = (s.writeWorking d lr 32).respond (.ok64 (merge lr))) ∨
    i = .rdsk ∧ t = s.respond (.ok8x32 s.k) := by
  cases i with
  | ldkey key =>
    rcases execLdkey_next h with ⟨-, ht⟩ | ⟨hk, ht⟩
    · exact .inl ⟨_, ht⟩
    · exact .inr (.inl ⟨key, rfl, hk, ht⟩)
  | ldsbox tbl =>
    rcases execLdsbox_next h with ⟨-, ht⟩ | ⟨-, -, ht⟩ | ⟨hs, hr, ht⟩
    · exact .inl ⟨_, ht⟩
    · exact .inl ⟨_, ht⟩
    · exact .inr (.inr (.inl ⟨tbl, rfl, hs, hr, ht⟩))
  | enc b =>
    rcases cipherBlock_next h with ⟨e, -, ht⟩ | ⟨lr, -, -, ht⟩
    · exact .inl ⟨e, ht⟩
    · exact .inr (.inr (.inr (.inl ⟨.enc, b, lr, .inl ⟨rfl, rfl⟩, ht⟩)))
  | dec b =>
    rcases cipherBlock_next h with ⟨e, -, ht⟩ | ⟨lr, -, -, ht⟩
    · exact .inl ⟨e, ht⟩
    · exact .inr (.inr (.inr (.inl ⟨.dec, b, lr, .inr ⟨rfl, rfl⟩, ht⟩)))
  | rdsk =>
    rcases execRdsk_next h with ⟨-, ht⟩ | ⟨-, ht⟩
    · exact .inl ⟨_, ht⟩
    · exact .inr (.inr (.inr (.inr ⟨rfl, ht⟩)))

/-- Settles O25: an error writes nothing, and each success writes its own row of the access matrix alone; LDSBOX
leaves an address that is none of the 128 cells as it was. -/
theorem commandFrame : Obligations.CommandFrame := by
  intro i s t h
  rcases exec_next h with ⟨e, rfl⟩ | ⟨key, rfl, -, rfl⟩ | ⟨tbl, rfl, -, -, rfl⟩ | ⟨d, b, lr, hi, rfl⟩ | ⟨rfl, rfl⟩
  · cases i <;> simp
  · simp
  · simpa using fun a ha => storeTable_read_other tbl s.sbox ha
  · rcases hi with ⟨-, rfl⟩ | ⟨-, rfl⟩ <;> simp
  · simp

/-! ### The valid flags -/

/-- From `s` to `t` a valid flag changes only upwards, and only if `d`, what the decoder made of the frame that ran, is
the legal load of that flag (10_state.md R23). -/
structure FlagsSetBy (d : Except CommandError Instr) (s t : State) : Prop where
  kv : t.kv ≠ s.kv → t.kv = true ∧ ∃ key, d = .ok (.ldkey key) ∧ key < 2 ^ 256
  sv : t.sv ≠ s.sv → t.sv = true ∧ ∃ tbl, d = .ok (.ldsbox tbl) ∧ shapeOK tbl = true ∧ rangeOK tbl = true

theorem FlagsSetBy.of_eq {d : Except CommandError Instr} {s t : State} (hkv : t.kv = s.kv) (hsv : t.sv = s.sv) :
    FlagsSetBy d s t :=
  ⟨fun h => absurd hkv h, fun h => absurd hsv h⟩

theorem exec_flagsSetBy {i : Instr} {s t : State} (h : exec i s = .next t) : FlagsSetBy (.ok i) s t := by
  rcases exec_next h with ⟨e, rfl⟩ | ⟨key, rfl, hk, rfl⟩ | ⟨tbl, rfl, hs, hr, rfl⟩ | ⟨d, b, lr, -, rfl⟩ | ⟨-, rfl⟩
  · exact .of_eq rfl rfl
  · exact ⟨fun _ => ⟨rfl, key, rfl, hk⟩, by simp⟩
  · exact ⟨by simp, fun _ => ⟨by simp, tbl, rfl, hs, hr⟩⟩
  · exact .of_eq rfl rfl
  · exact .of_eq rfl rfl

theorem beginCommand_flagsSetBy {i : Instr} {s t : State} (h : beginCommand i s = .next t) :
    FlagsSetBy (.ok i) s t := by
  rcases beginCommand_next h with hexec | ⟨d, b, -, -, rfl⟩
  · exact exec_flagsSetBy hexec
  · exact .of_eq rfl rfl

theorem runFrame_flagsSetBy {f : List Byte} {s t : State} (h : runFrame f s = .next t) :
    FlagsSetBy (decode f) s t := by
  cases hd : decode f with
  | ok i => exact exec_flagsSetBy (runFrame_ok hd s ▸ h)
  | error e =>
    obtain rfl : s.raise e = t := by simpa [runFrame_error hd] using h
    exact .of_eq rfl rfl

theorem beginFrame_flagsSetBy {f : List Byte} {s t : State} (h : beginFrame f s = .next t) :
    FlagsSetBy (decode f) s t := by
  cases hd : decode f with
  | ok i => exact beginCommand_flagsSetBy (beginFrame_ok hd s ▸ h)
  | error e =>
    obtain rfl : s.raise e = t := by simpa [beginFrame_error hd] using h
    exact .of_eq rfl rfl

/-- A transition of a command in flight changes neither flag. -/
theorem advance_flags {s t : State} (h : advance s = .next t) : t.kv = s.kv ∧ t.sv = s.sv := by
  rcases advance_next h with ⟨lr, -, -, -, -, rfl⟩ | ⟨-, rfl⟩
  · exact ⟨rfl, rfl⟩
  · exact ⟨rfl, rfl⟩

/-- A step is a reset and clears both flags, or runs a frame that may set them, or changes neither. -/
theorem step_flags {s t : State} (h : step s = .next t) :
    (t.kv = false ∧ t.sv = false ∧
      ∃ rest, s.inbox = .reset :: rest ∨ ∃ f held, s.inbox = .resetDuring f held :: rest) ∨
    (∃ f rest, (s.inbox = .frame f :: rest ∨ s.inbox = .stepped f :: rest) ∧ FlagsSetBy (decode f) s t) ∨
    t.kv = s.kv ∧ t.sv = s.sv := by
  rcases step_cases h with ⟨rest, hi, rfl⟩ | ⟨-, -, hadv⟩ | ⟨-, -, rfl⟩ | ⟨f, rest, -, hi, hrun⟩ | ⟨f, rest, -, hi, hrun⟩
  · exact .inl ⟨rfl, rfl, rest, hi.imp_right And.right⟩
  · exact .inr (.inr (advance_flags hadv))
  · exact .inr (.inr ⟨rfl, rfl⟩)
  · obtain ⟨hkv, hsv⟩ := runFrame_flagsSetBy hrun
    exact .inr (.inl ⟨f, rest, .inl hi, hkv, hsv⟩)
  · obtain ⟨hkv, hsv⟩ := beginFrame_flagsSetBy hrun
    exact .inr (.inl ⟨f, rest, .inr hi, hkv, hsv⟩)

/-- Settles O48: the three kinds of step of `step_flags`, read for each flag. -/
theorem validFlagsChangeOnly : Obligations.ValidFlagsChangeOnly := by
  intro s t h
  rcases step_flags h with ⟨hkv, hsv, hreset⟩ | ⟨f, rest, hi, hset⟩ | ⟨hkv, hsv⟩
  · exact ⟨fun _ => .inr ⟨hkv, hreset⟩, fun _ => .inr ⟨hsv, hreset⟩⟩
  · constructor
    · intro hne
      obtain ⟨hkv, key, hd, hkey⟩ := hset.kv hne
      exact .inl ⟨hkv, f, rest, key, hi, hd, hkey⟩
    · intro hne
      obtain ⟨hsv, tbl, hd, hshape, hrange⟩ := hset.sv hne
      exact .inl ⟨hsv, f, rest, tbl, hi, hd, hshape, hrange⟩
  · exact ⟨fun hne => absurd hkv hne, fun hne => absurd hsv hne⟩

end Sys2Proof.Machine
end

section
/-!
PROOFS. The encoding: the decoder reads canonical frames back, which frames carry what, the decode errors, the response
frames byte by byte, and the subkey index from the bits of the round counter.
-/

namespace Sys2Proof.Machine

/-! ### What a parsed operand becomes -/

theorem exceptMap_eq_ok_iff {α β : Type} {f : α → β} {x : Except CommandError α} {b : β} :
    x.map f = .ok b ↔ ∃ a, x = .ok a ∧ f a = b := by
  cases x <;> simp [Except.map]

theorem exceptMap_eq_error_iff {α β : Type} {f : α → β} {x : Except CommandError α} {e : CommandError} :
    x.map f = .error e ↔ x = .error e := by
  cases x <;> simp [Except.map]

/-! ### Integer frames (30_encoding.md R51) -/

/-- The little-endian value is the sum that R51 writes. -/
theorem leValue_eq_sum (bs : List Byte) : leValue bs = (bs.mapIdx fun j b => b.toNat * 256 ^ j).sum := by
  have digits : leValue bs = Nat.ofDigits 256 (bs.map BitVec.toNat) := by
    induction bs with
    | nil => rfl
    | cons b bs ih => rw [leValue, ih, List.map_cons, Nat.ofDigits_cons]
  have shift : (bs.map BitVec.toNat).mapIdx (fun j d => d * 256 ^ j) = bs.mapIdx fun j b => b.toNat * 256 ^ j := by
    apply List.ext_getElem <;> simp
  rw [digits, Nat.ofDigits_eq_sum_mapIdx, shift]

/-- The opcodes of format I, each with its command (30_encoding.md R50). -/
def IntegerFormat (op : Byte) (mk : Nat → Instr) : Prop :=
  (op = 0x01 ∧ mk = .ldkey) ∨ (op = 0x03 ∧ mk = .enc) ∨ (op = 0x04 ∧ mk = .dec)

theorem decode_integer {op : Byte} {mk : Nat → Instr} (h : IntegerFormat op mk) (body : List Byte) :
    decode (op :: body) = (parseInteger body).map mk := by
  rcases h with ⟨rfl, rfl⟩ | ⟨rfl, rfl⟩ | ⟨rfl, rfl⟩
  · exact decode_ldkey body
  · exact decode_enc body
  · exact decode_dec body

/-- A format I frame without its length byte. -/
theorem decode_integer_nil {op : Byte} {mk : Nat → Instr} (h : IntegerFormat op mk) :
    decode [op] = .error .frameError := by
  rw [decode_integer h]; rfl

theorem decode_integer_cons {op : Byte} {mk : Nat → Instr} (h : IntegerFormat op mk) (len : Byte) (val : List Byte) :
    decode (op :: len :: val) =
      if val.length = len.toNat then .ok (mk (leValue val)) else .error .frameError := by
  rw [decode_integer h, parseInteger_cons]
  split_ifs <;> rfl

theorem exists_integerFormat {op : Byte} (h : op ∈ [(0x01 : Byte), 0x03, 0x04]) : ∃ mk, IntegerFormat op mk := by
  simp only [List.mem_cons, List.not_mem_nil, or_false] at h
  rcases h with rfl | rfl | rfl
  · exact ⟨.ldkey, .inl ⟨rfl, rfl⟩⟩
  · exact ⟨.enc, .inr (.inl ⟨rfl, rfl⟩)⟩
  · exact ⟨.dec, .inr (.inr ⟨rfl, rfl⟩)⟩

/-- A canonical format I frame is read back, its `LEN` being whatever the operand needs. -/
theorem decode_integer_encode {op : Byte} {mk : Nat → Instr} (h : IntegerFormat op mk) {nominal v : Nat}
    (hn : nominal < 256) (hv : intCarried v) : decode (op :: encodeInteger nominal v) = .ok (mk v) := by
  rw [decode_integer h, parseInteger_encodeInteger hn hv]; rfl

/-- Settles O2: the value that the decoder accumulates byte by byte is the sum of R51. -/
theorem integerFramesCarryTheValue : Obligations.IntegerFramesCarryTheValue := by
  intro op mk h
  refine ⟨decode_integer_nil h, fun len val => ?_⟩
  rw [decode_integer_cons h, leValue_eq_sum]

/-! ### Table frames (30_encoding.md R52) -/

theorem decode_ldsbox_ok_iff {body : List Byte} {tbl : List (List Nat)} :
    decode (0x02 :: body) = .ok (.ldsbox tbl) ↔ tableCarried tbl ∧ body = encodeTable tbl := by
  rw [decode_ldsbox, exceptMap_eq_ok_iff, ← parseTable_ok_iff]
  simp

/-- A format T frame whose body encodes no table has the wrong length. -/
theorem decode_ldsbox_malformed {body : List Byte} (h : ¬∃ tbl, tableCarried tbl ∧ body = encodeTable tbl) :
    decode (0x02 :: body) = .error .frameError := by
  rw [decode_ldsbox, exceptMap_eq_error_iff]
  cases hp : parseTable body with
  | ok tbl => exact absurd ⟨tbl, parseTable_ok_iff.1 hp⟩ h
  | error e => rw [parseTable_error hp]

/-- Settles O3: the bodies that the decoder reads as a table are the encoded ones. -/
theorem tableFramesCarryTheTable : Obligations.TableFramesCarryTheTable :=
  fun _ _ => decode_ldsbox_ok_iff

/-! ### Canonical frames (30_encoding.md R59) -/

/-- Settles O1: one case a command; each format reads its own operand back. -/
theorem decodeEncodeAgree : Obligations.DecodeEncodeAgree := by
  intro i h
  cases i with
  | ldkey key => exact decode_integer_encode (.inl ⟨rfl, rfl⟩) (by decide) h
  | ldsbox tbl => exact decode_ldsbox_ok_iff.2 ⟨h, rfl⟩
  | enc block => exact decode_integer_encode (.inr (.inl ⟨rfl, rfl⟩)) (by decide) h
  | dec block => exact decode_integer_encode (.inr (.inr ⟨rfl, rfl⟩)) (by decide) h
  | rdsk => rfl

/-- Settles O5: each of the five frames is evaluated. -/
theorem framesOfTheSpecDecode : Obligations.FramesOfTheSpecDecode :=
  ⟨by decide, by decide, by decide, by decide, rfl⟩

/-! ### The opcode map and the decode errors (30_encoding.md R55, R56) -/

theorem parseInteger_error {body : List Byte} {e : CommandError} (h : parseInteger body = .error e) :
    e = .frameError := by
  cases body with
  | nil => simpa [parseInteger, eq_comm] using h
  | cons len val =>
    rw [parseInteger_cons] at h
    split_ifs at h
    simpa [eq_comm] using h

theorem parseNone_ok_iff {body : List Byte} {u : Unit} : parseNone body = .ok u ↔ body = [] := by
  cases body <;> simp [parseNone]

theorem parseNone_error {body : List Byte} {e : CommandError} (h : parseNone body = .error e) : e = .frameError := by
  cases body with
  | nil => cases h
  | cons b bs => simpa [parseNone, eq_comm] using h

/-- A non-empty frame fails for its length, or for its reserved opcode. -/
theorem decode_error_cases {op : Byte} {body : List Byte} {e : CommandError} (h : decode (op :: body) = .error e) :
    e = .frameError ∨ e = .badCommand ∧ (op = 0x00 ∨ 0x06 ≤ op) := by
  rcases opcode_cases op with rfl | rfl | rfl | rfl | rfl | hop
  · exact .inl (parseInteger_error (exceptMap_eq_error_iff.1 h))
  · exact .inl (parseTable_error (exceptMap_eq_error_iff.1 h))
  · exact .inl (parseInteger_error (exceptMap_eq_error_iff.1 h))
  · exact .inl (parseInteger_error (exceptMap_eq_error_iff.1 h))
  · exact .inl (parseNone_error (exceptMap_eq_error_iff.1 h))
  · rw [decode_reserved hop] at h
    exact .inr ⟨by simpa [eq_comm] using h, hop⟩

theorem decode_badCommand_iff {op : Byte} {body : List Byte} :
    decode (op :: body) = .error .badCommand ↔ op = 0x00 ∨ 0x06 ≤ op := by
  refine ⟨fun h => ?_, fun h => decode_reserved h body⟩
  rcases decode_error_cases h with he | ⟨-, hop⟩
  · cases he
  · exact hop

/-- A frame that decodes begins with the opcode of its command, and RDSK has no operand. -/
theorem decode_ok_opcode {op : Byte} {body : List Byte} {i : Instr} (h : decode (op :: body) = .ok i) :
    op = opcode i ∧ (i = .rdsk → body = []) := by
  rcases opcode_cases op with rfl | rfl | rfl | rfl | rfl | hop
  · obtain ⟨key, -, rfl⟩ := exceptMap_eq_ok_iff.1 h
    exact ⟨rfl, nofun⟩
  · obtain ⟨tbl, -, rfl⟩ := exceptMap_eq_ok_iff.1 h
    exact ⟨rfl, nofun⟩
  · obtain ⟨block, -, rfl⟩ := exceptMap_eq_ok_iff.1 h
    exact ⟨rfl, nofun⟩
  · obtain ⟨block, -, rfl⟩ := exceptMap_eq_ok_iff.1 h
    exact ⟨rfl, nofun⟩
  · obtain ⟨u, hu, rfl⟩ := exceptMap_eq_ok_iff.1 h
    exact ⟨rfl, fun _ => parseNone_ok_iff.1 hu⟩
  · rw [decode_reserved hop] at h
    cases h

/-- Settles O4: the reserved opcodes are the only BadCommand, and a decoded command has its own opcode. -/
theorem opcodeByteSelectsTheCommand : Obligations.OpcodeByteSelectsTheCommand := by
  intro op body
  refine ⟨decode_badCommand_iff, fun i h => ?_⟩
  obtain ⟨hop, hbody⟩ := decode_ok_opcode h
  cases i with
  | ldkey key => exact hop
  | ldsbox tbl => exact hop
  | enc block => exact hop
  | dec block => exact hop
  | rdsk => exact ⟨hop, hbody rfl⟩

/-- Settles O6: a frame that does not decode raises its error, and `raise` writes nothing but the response. -/
theorem reservedAndMalformedFrames : Obligations.ReservedAndMalformedFrames := by
  intro s f
  constructor
  · rintro ⟨op, body, rfl, hop⟩
    exact runFrame_error (decode_reserved hop body) s
  · intro h
    have malformed : decode f = .error .frameError := by
      rcases h with rfl | ⟨b, bs, rfl⟩ | ⟨op, hop, h⟩ | ⟨body, rfl, h⟩
      · exact decode_nil
      · exact decode_rdsk (b :: bs)
      · obtain ⟨mk, hmk⟩ := exists_integerFormat hop
        rcases h with rfl | ⟨len, val, rfl, hlen⟩
        · exact decode_integer_nil hmk
        · rw [decode_integer_cons hmk, if_neg hlen]
      · exact decode_ldsbox_malformed h
    exact runFrame_error malformed s

/-! ### Response frames (30_encoding.md R53) -/

theorem getElem?_leBytes {n j : Nat} (hj : j < n) (v : Nat) :
    (leBytes n v)[j]? = some (BitVec.ofNat 8 (v >>> (8 * j))) := by
  induction n generalizing j v with
  | zero => omega
  | succ n ih =>
    cases j with
    | zero => rfl
    | succ j =>
      have shift : (v / 256) >>> (8 * j) = v >>> (8 * (j + 1)) := by
        rw [Nat.mul_succ, Nat.add_comm, Nat.shiftRight_add, Nat.shiftRight_eq_div_pow v 8]
      rw [leBytes, List.getElem?_cons_succ, ih (by omega), shift]

/-- Byte `j` of a little-endian word is its bits `8j+7 : 8j`. -/
theorem getElem?_leBytes_toNat {w : Nat} (x : BitVec w) {n j : Nat} (hj : j < n) :
    (leBytes n x.toNat)[j]? = some (x.extractLsb' (8 * j) 8) :=
  getElem?_leBytes hj x.toNat

/-- In a sequence of blocks of one length `m`, place `m * i + j` is place `j` of block `i`. -/
theorem getElem?_flatMap_blocks {α β : Type} {f : α → List β} {m : Nat} (hf : ∀ a, (f a).length = m) {l : List α}
    {i j : Nat} (hi : i < l.length) (hj : j < m) : (l.flatMap f)[m * i + j]? = (f l[i])[j]? := by
  induction l generalizing i with
  | nil => simp at hi
  | cons a l ih =>
    rw [List.flatMap_cons]
    cases i with
    | zero => rw [Nat.mul_zero, Nat.zero_add, List.getElem?_append_left (by rw [hf]; exact hj)]; rfl
    | succ i =>
      have next : m * (i + 1) + j - m = m * i + j := by rw [Nat.mul_succ]; omega
      rw [List.getElem?_append_right (by rw [hf, Nat.mul_succ]; omega), hf, next, ih (by simpa using hi)]
      rfl

theorem responseFrame_ok64_getElem? (v : Block) {j : Nat} (hj : j < 8) :
    (responseFrame (.ok64 v))[1 + j]? = some (v.extractLsb' (8 * j) 8) := by
  rw [responseFrame, Nat.add_comm, List.getElem?_cons_succ, getElem?_leBytes_toNat v hj]

theorem responseFrame_ok8x32_getElem? (ks : Vector Word 8) (i : Fin 8) {j : Nat} (hj : j < 4) :
    (responseFrame (.ok8x32 ks))[1 + 4 * i.val + j]? = some (ks[i].extractLsb' (8 * j) 8) := by
  rw [responseFrame, Nat.add_assoc, Nat.add_comm 1, List.getElem?_cons_succ,
    getElem?_flatMap_blocks (fun _ => leBytes_length 4 _) (by simp) hj, getElem?_leBytes_toNat _ hj]
  simp

theorem responseFrame_ok8x32_length (ks : Vector Word 8) : (responseFrame (.ok8x32 ks)).length = 33 := by
  simp [responseFrame, List.length_flatMap]

theorem errorCode_ne_zero (e : CommandError) : errorCode e ≠ 0x00 := by
  cases e <;> decide

/-- Settles O7: an error is its code, a block is eight bytes, and the subkeys are eight blocks of four bytes. -/
theorem responseFramesByteByByte : Obligations.ResponseFramesByteByByte :=
  ⟨rfl,
   fun e => ⟨errorCode e, errorCode_ne_zero e, rfl⟩,
   fun v => ⟨by simp [responseFrame], rfl, fun _ hj => responseFrame_ok64_getElem? v hj⟩,
   fun ks => ⟨responseFrame_ok8x32_length ks, rfl, fun i _ hj => responseFrame_ok8x32_getElem? ks i hj⟩⟩

/-! ### The round control word (30_encoding.md R60) -/

/-- The first three quarters of an ENC count up, the last counts down. -/
theorem ksel_enc_val (c : BitVec 5) :
    (ksel .enc c).val = (if c.extractLsb' 3 2 ≠ 3 then c.extractLsb' 0 3 else ~~~(c.extractLsb' 0 3)).toNat := by
  revert c; decide

/-- The first quarter of a DEC counts up, the other three count down. -/
theorem ksel_dec_val (c : BitVec 5) :
    (ksel .dec c).val = (if c.extractLsb' 3 2 = 0 then c.extractLsb' 0 3 else ~~~(c.extractLsb' 0 3)).toNat := by
  revert c; decide

/-- DEC takes the subkeys of ENC in the opposite order (43_decrypt.md R102). -/
theorem ksel_dec_eq_enc_mirror (c : BitVec 5) : ksel .dec c = ksel .enc (31 - c) := by
  revert c; decide

/-- Settles O39: the 64 pairs, 32 for each mode, and the mirror identity. -/
theorem roundControlWord : Obligations.RoundControlWord :=
  fun c => ⟨ksel_enc_val c, ksel_dec_val c, ksel_dec_eq_enc_mirror c⟩

end Sys2Proof.Machine
end

section
/-!
PROOFS. The key schedule: `derive` cuts the key into eight words and the concatenation of the words is its inverse;
what LDKEY writes.
-/

namespace Sys2Proof.Machine

/-! ### The subkeys of a key (40_key_schedule.md R66) -/

@[simp] theorem derive_getElem (key : Key) {i : Nat} (hi : i < 8) : (derive key)[i] = key.extractLsb' (32 * i) 32 := by
  simp [derive]

/-- R66 over numbers: `ki` by division. -/
theorem derive_toNat (key : Key) (i : Fin 8) : (derive key)[i].toNat = key.toNat / 2 ^ (32 * i.val) % 2 ^ 32 := by
  rw [Fin.getElem_fin, derive_getElem key i.isLt, BitVec.extractLsb'_toNat, Nat.shiftRight_eq_div_pow]

/-! ### `derive` is a bijection (40_key_schedule.md R69) -/

/-- R69 (b): bit `n` of the key is bit `n % 32` of subkey `n / 32`. -/
theorem getElem_eq_derive (key : Key) {n : Nat} (h : n < 256) : key[n] = ((derive key)[n / 32])[n % 32] := by
  rw [derive_getElem, BitVec.getElem_extractLsb', Nat.div_add_mod, BitVec.getLsbD_eq_getElem h]

/-- Keys with the same subkeys have the same bits. -/
theorem derive_injective : Function.Injective derive := by
  intro key key' h
  ext n hn
  rw [getElem_eq_derive key hn, getElem_eq_derive key' hn, h]

/-- The words `ws` in one, the first least significant, with `top` above them all. A list, so that cutting out word `i`
is an induction and not eight cases. -/
def concatWords (top : Word) : (ws : List Word) → BitVec (32 * (ws.length + 1))
  | [] => top
  | w :: ws => concatWords top ws ++ w

/-- Cutting at word `i` drops the `i` words below it and those above it. -/
theorem concatWords_extractLsb' (top : Word) (ws : List Word) {i : Nat} (hi : i < (ws ++ [top]).length) :
    (concatWords top ws).extractLsb' (32 * i) 32 = (ws ++ [top])[i] := by
  induction ws generalizing i with
  | nil =>
    obtain rfl : i = 0 := by simpa using hi
    exact BitVec.extractLsb'_eq_self
  | cons w ws ih =>
    cases i with
    | zero => exact BitVec.extractLsb'_append_eq_right
    | succ i => exact (BitVec.extractLsb'_append_eq_of_le (by omega)).trans (ih (Nat.lt_of_succ_lt_succ hi))

/-- The eight subkeys in one, subkey 7 on top. -/
def concatSubkeys (ks : Vector Word 8) : Key := concatWords ks[7] [ks[0], ks[1], ks[2], ks[3], ks[4], ks[5], ks[6]]

/-- R69 (a): the concatenation as the rule writes it out. -/
theorem concatSubkeys_eq_append (ks : Vector Word 8) :
    concatSubkeys ks =
      (ks[7] ++ ks[6] ++ ks[5] ++ ks[4] ++ ks[3] ++ ks[2] ++ ks[1] ++ ks[0] :
        BitVec (32 + 32 + 32 + 32 + 32 + 32 + 32 + 32)) := rfl

theorem derive_concatSubkeys (ks : Vector Word 8) : derive (concatSubkeys ks) = ks := by
  ext1 i hi
  have word : (concatSubkeys ks).extractLsb' (32 * i) 32 =
      [ks[0], ks[1], ks[2], ks[3], ks[4], ks[5], ks[6], ks[7]][i] := concatWords_extractLsb' _ _ hi
  rw [derive_getElem, word]
  interval_cases i <;> rfl

/-- Settles O28: `getElem_eq_derive` is the bit selection; the concatenation is a key of the subkeys, and the only one
because `derive` is injective. -/
theorem deriveIsBitSelection : Obligations.DeriveIsBitSelection :=
  ⟨fun key _ h => getElem_eq_derive key h,
   fun ks => ⟨concatSubkeys ks, derive_concatSubkeys ks,
    fun _ h => derive_injective (h.trans (derive_concatSubkeys ks).symm), concatSubkeys_eq_append ks⟩⟩

/-! ### LDKEY (40_key_schedule.md R67) -/

/-- LDKEY of a key that passes the range check. -/
theorem execLdkey_of_lt {key : Nat} (h : key < 2 ^ 256) (s : State) :
    execLdkey key s =
      .next (((s.writeKey (BitVec.ofNat 256 key) (derive (BitVec.ofNat 256 key))).setKV).respond .ok) := by
  rw [execLdkey, if_pos (keyOK_iff.2 h)]

/-- Settles O15: the key passes the range check, and what LDKEY writes is read off its one next state. -/
theorem ldkeyLoads : Obligations.LdkeyLoads := by
  intro key s h
  have key_toNat : (BitVec.ofNat 256 key).toNat = key := Nat.mod_eq_of_lt h
  refine ⟨_, execLdkey_of_lt h s, key_toNat, rfl, fun i => ?_, rfl⟩
  calc (derive (BitVec.ofNat 256 key))[i].toNat
    _ = (BitVec.ofNat 256 key).toNat / 2 ^ (32 * i.val) % 2 ^ 32 := derive_toNat _ i
    _ = key / 2 ^ (32 * i.val) % 2 ^ 32 := by rw [key_toNat]

end Sys2Proof.Machine
end

section
/-!
PROOFS. The round function: what SUBST reads and where it puts it, the rotation by eleven, and MIX as a Feistel round.
-/

namespace Sys2Proof.Machine

/-! ### SUBST (41_round_function.md R78) -/

/-- The address of the cell that SUBST looks up for nibble `i`, over numbers. -/
theorem cellAddr_nibble (t : Word) (i : Nat) :
    cellAddr i (nibble t i).toNat = 16 * i + t.toNat / 2 ^ (4 * i) % 16 := by
  simp [cellAddr, nibble, Nat.shiftRight_eq_div_pow]

/-- A cell put into nibble `n` is that nibble of the result alone. -/
theorem nibble_setWidth_shiftLeft (c : Nibble) {n i : Nat} (hi : i < 8) :
    nibble (c.setWidth 32 <<< (4 * n)) i = if i = n then c else 0#4 := by
  ext b hb
  simp only [nibble, BitVec.getElem_extractLsb', BitVec.getLsbD_shiftLeft, BitVec.getLsbD_setWidth]
  split_ifs with h
  · subst h
    have inWord : 4 * i + b < 32 := by omega
    have inCell : b < 32 := by omega
    simp [inWord, inCell, BitVec.getLsbD_eq_getElem hb]
  · rcases Nat.lt_or_gt_of_ne h with h | h
    · have below : 4 * i + b < 4 * n := by omega
      simp [below]
    · have above : 4 ≤ 4 * i + b - 4 * n := by omega
      simp [BitVec.getLsbD_of_ge c _ above]

theorem nibble_or (v w : Word) (i : Nat) : nibble (v ||| w) i = nibble v i ||| nibble w i :=
  BitVec.extractLsb'_or

theorem substRows_succ {m : Memory} {t w : Word} {n : Nat} (h : substRows m t (n + 1) = some w) :
    ∃ s c, substRows m t n = some s ∧ m.read (cellAddr n (nibble t n).toNat) = some c ∧
      w = s ||| (c.setWidth 32 <<< (4 * n)) := by
  rw [substRows] at h
  split at h
  · next s c hs hc => exact ⟨s, c, hs, hc, (Option.some.inj h).symm⟩
  · cases h

/-- The nibbles that the first `n` lookups have not reached are zero. -/
theorem nibble_substRows_of_ge {m : Memory} {t w : Word} {n i : Nat} (h : substRows m t n = some w) (hn : n ≤ i)
    (hi : i < 8) : nibble w i = 0#4 := by
  induction n generalizing w with
  | zero =>
    obtain rfl : 0 = w := Option.some.inj h
    exact BitVec.extractLsb'_zero
  | succ n ih =>
    obtain ⟨s, c, hs, -, rfl⟩ := substRows_succ h
    rw [nibble_or, nibble_setWidth_shiftLeft c hi, if_neg (by omega), ih hs (by omega), BitVec.or_zero]

/-- Each nibble that the first `n` lookups have reached is the cell its lookup read. -/
theorem read_nibble_substRows {m : Memory} {t w : Word} {n i : Nat} (h : substRows m t n = some w) (hi : i < n)
    (hn : n ≤ 8) : m.read (cellAddr i (nibble t i).toNat) = some (nibble w i) := by
  induction n generalizing w with
  | zero => omega
  | succ n ih =>
    obtain ⟨s, c, hs, hc, rfl⟩ := substRows_succ h
    rw [nibble_or, nibble_setWidth_shiftLeft c (by omega)]
    rcases Nat.lt_succ_iff_lt_or_eq.1 hi with hlt | rfl
    · rw [if_neg (by omega), BitVec.or_zero, ih hs hlt (by omega)]
    · rw [if_pos rfl, nibble_substRows_of_ge hs le_rfl hn, BitVec.zero_or, hc]

/-- Settles O29: SUBST answers on a loaded table, and each of the eight lookups leaves its cell in its own nibble. -/
theorem substNibbleByNibble : Obligations.SubstNibbleByNibble := by
  intro m t hm
  obtain ⟨w, hw⟩ := subst_some hm t
  refine ⟨w, hw, fun i hi => ?_⟩
  rw [← cellAddr_nibble]
  exact read_nibble_substRows hw hi le_rfl

/-! ### ROL11 (41_round_function.md R79) -/

theorem rol11_eq_or (s : Word) : rol11 s = (s >>> 21) ||| (s <<< 11) :=
  BitVec.or_comm _ _

theorem rol11_eq_rotateLeft (s : Word) : rol11 s = s.rotateLeft 11 := rfl

/-- Bits 10..0 come from the top of the word, the others from 11 places below. -/
theorem rol11_getElem (s : Word) {b : Nat} (h : b < 32) : (rol11 s)[b] = s[(b + 21) % 32] := by
  simp only [rol11_eq_rotateLeft, BitVec.getElem_rotateLeft]
  split_ifs with hb <;> congr 1 <;> omega

theorem rol11_eq_append (s : Word) :
    rol11 s = (s.extractLsb' 0 21 ++ s.extractLsb' 21 11 : BitVec (21 + 11)) := by
  ext b hb
  rw [rol11_getElem s hb, BitVec.getElem_append]
  split_ifs with h <;>
  · rw [BitVec.getElem_extractLsb', BitVec.getLsbD_eq_getElem (by omega)]
    congr 1; omega

/-- Settles O30: the formula, the concatenation and the bit permutation, each by its lemma. -/
theorem rotationByEleven : Obligations.RotationByEleven :=
  fun s => ⟨rol11_eq_or s, rol11_eq_append s, fun _ h => rol11_getElem s h⟩

/-! ### MIX (41_round_function.md R76, R82, R83) -/

/-- MIX fails only where SUBST does. -/
theorem mix_eq_map (m : Memory) (p : Word × Word) (k : Word) :
    mix m p k = (subst m (p.2 ^^^ k)).map fun s => (p.2, p.1 ^^^ rol11 s) := by
  unfold mix keyMix
  cases subst m (p.2 ^^^ k) <;> rfl

/-- Settles O31: SUBST answers on a loaded table, and MIX with it. -/
theorem mixFormula : Obligations.MixFormula := by
  intro m l r k hm
  obtain ⟨s, hs⟩ := subst_some hm (r ^^^ k)
  exact ⟨s, hs, mix_eq_some_iff.2 ⟨s, hs, rfl⟩⟩

/-- Settles O32: the half that selects the mask is passed on, so the swapped round draws the same mask, and a mask
drawn twice cancels. -/
theorem mixUndoesItself : Obligations.MixUndoesItself := by
  intro m p q k h
  obtain ⟨s, hs, rfl⟩ := mix_eq_some_iff.1 h
  exact mix_eq_some_iff.2 ⟨s, hs, by simp [Prod.swap]⟩

/-- Settles O33: SUBST does not read the left half, and a difference in both the right half and the subkey cancels in
its operand; so both sides of a clause have the same mask, and only the half that carries the difference changes. -/
theorem mixDifferences : Obligations.MixDifferences := by
  intro m l r k d
  constructor
  · have left (s : Word) : (l ^^^ d) ^^^ rol11 s = (l ^^^ rol11 s) ^^^ d := by ac_rfl
    simp [mix_eq_map, Function.comp_def, left]
  · have operand : (r ^^^ d) ^^^ (k ^^^ d) = r ^^^ k := by
      rw [BitVec.xor_comm k, BitVec.xor_assoc, ← BitVec.xor_assoc d, BitVec.xor_self, BitVec.zero_xor]
    simp [mix_eq_map, Function.comp_def, operand]

end Sys2Proof.Machine
end

section
/-!
PROOFS. Encryption: the 32 rounds as a fold over the subkey order, ENC with constant rows, and the round-stepped reading
against the atomic command.
-/

namespace Sys2Proof.Machine

/-! ### The subkey order (42_encrypt.md R92) -/

/-- The indices of the subkeys of the first `n` rounds, in order. -/
def subkeyOrder (d : Mode) (n : Nat) : List (Fin 8) := (List.range n).map fun j => ksel d (BitVec.ofNat 5 j)

theorem subkeyOrder_succ (d : Mode) (n : Nat) :
    subkeyOrder d (n + 1) = subkeyOrder d n ++ [ksel d (BitVec.ofNat 5 n)] := by
  simp [subkeyOrder, List.range_succ]

/-- R92, written out: `K0..K7` three times, then `K7..K0`. -/
theorem subkeyOrder_enc :
    subkeyOrder .enc 32 =
      [0, 1, 2, 3, 4, 5, 6, 7, 0, 1, 2, 3, 4, 5, 6, 7, 0, 1, 2, 3, 4, 5, 6, 7, 7, 6, 5, 4, 3, 2, 1, 0] := by
  decide

/-- The rounds are one MIX after another, with the subkeys in their order. -/
theorem network_eq_foldlM (m : Memory) (ks : Vector Word 8) (d : Mode) (p : Word × Word) (n : Nat) :
    network m ks d p n = (subkeyOrder d n).foldlM (fun q i => mix m q ks[i]) p := by
  induction n with
  | zero => rfl
  | succ n ih =>
    rw [network_succ, ih, subkeyOrder_succ, List.foldlM_append]
    simp [roundKey, Vector.get_eq_getElem]

/-! ### ENC and DEC on a configured core -/

/-- Every 64-bit block passes the range check, so the result of its 32 rounds is the result of the command. -/
theorem cipherBlock_of_network {s : State} {d : Mode} {b : Block} {lr : Word × Word} (hkv : s.kv = true)
    (hsv : s.sv = true) (h : network s.sbox s.k d (split b) 32 = some lr) :
    cipherBlock d b.toNat s = .next ((s.writeWorking d lr 32).respond (.ok64 (merge lr))) :=
  cipherBlock_ok (blockError_eq_none_iff.2 ⟨hkv, hsv, b.isLt⟩) (by rwa [BitVec.ofNat_toNat, BitVec.setWidth_eq])

theorem Configured.cipherBlock_eq {s : State} (hs : Configured s) (d : Mode) (b : Block) :
    ∃ lr, network s.sbox s.k d (split b) 32 = some lr ∧
      cipherBlock d b.toNat s = .next ((s.writeWorking d lr 32).respond (.ok64 (merge lr))) := by
  obtain ⟨lr, hlr⟩ := network_some hs.cells s.k d (split b) 32
  exact ⟨lr, hlr, cipherBlock_of_network hs.kv hs.sv hlr⟩

/-- Settles O17: on a configured core the rounds have a result, and they are the fold over R92's order. -/
theorem encRunsItsSchedule : Obligations.EncRunsItsSchedule := by
  intro b s hs
  obtain ⟨lr, hlr, hnext⟩ := hs.cipherBlock_eq .enc b
  rw [network_eq_foldlM, subkeyOrder_enc] at hlr
  exact ⟨_, lr, hnext, hlr, rfl, rfl, rfl, ⟨rfl, rfl, rfl, rfl, rfl⟩, rfl⟩

/-! ### Constant rows (42_encrypt.md R96) -/

/-- Every row of the table holds one value in all its columns. -/
def ConstantRows (m : Memory) : Prop := ∀ i < 8, ∃ c, ∀ v < 16, m.read (16 * i + v) = some c

/-- With constant rows no lookup depends on the nibble that is looked up. -/
theorem ConstantRows.substRows_eq {m : Memory} (hm : ConstantRows m) {n : Nat} (hn : n ≤ 8) :
    ∃ w, ∀ t, substRows m t n = some w := by
  induction n with
  | zero => exact ⟨0, fun _ => rfl⟩
  | succ n ih =>
    obtain ⟨w, hw⟩ := ih (by omega)
    obtain ⟨c, hc⟩ := hm n (by omega)
    have lookup (t : Word) : m.read (cellAddr n (nibble t n).toNat) = some c := hc _ (nibble t n).isLt
    exact ⟨w ||| (c.setWidth 32 <<< (4 * n)), fun t => by simp only [substRows, hw, lookup]⟩

/-- With constant rows every round has the same mask, whatever the subkey. -/
theorem ConstantRows.mix_eq {m : Memory} (hm : ConstantRows m) :
    ∃ w, ∀ p k, mix m p k = some (p.2, p.1 ^^^ w) := by
  obtain ⟨s, hs⟩ := hm.substRows_eq le_rfl
  exact ⟨rol11 s, fun p k => mix_eq_some_iff.2 ⟨s, hs _, rfl⟩⟩

/-- Four rounds with one mask put it twice on each half and bring each half back to its place. -/
theorem ConstantRows.network_four_mul {m : Memory} (hm : ConstantRows m) (ks : Vector Word 8) (d : Mode)
    (p : Word × Word) (n : Nat) : network m ks d p (4 * n) = some p := by
  obtain ⟨w, hw⟩ := hm.mix_eq
  induction n with
  | zero => rfl
  | succ n ih =>
    have twice (x : Word) : (x ^^^ w) ^^^ w = x := by rw [BitVec.xor_assoc, BitVec.xor_self, BitVec.xor_zero]
    simp only [Nat.mul_succ, network_succ, ih, hw, Option.bind_some, twice]

/-- Settles O37: 32 rounds are eight times four, so the final halves are those of the block, and the merge exchanges
them. -/
theorem constantRowsExchangeHalves : Obligations.ConstantRowsExchangeHalves := by
  intro b s hkv hsv (hrows : ConstantRows s.sbox)
  have rounds : network s.sbox s.k .enc (split b) 32 = some (split b) :=
    hrows.network_four_mul s.k .enc (split b) 8
  exact ⟨_, cipherBlock_of_network hkv hsv rounds, rfl⟩

/-! ### The round-stepped reading (42_encrypt.md R88, R89) -/

theorem startBlock_ok {d : Mode} {b : Nat} {s : State} (h : blockError b s = none) :
    startBlock d b s = .next (s.writeWorking d (split (BitVec.ofNat 64 b)) 0).setBusy := by
  rw [startBlock, h]

/-- In both readings a frame of ENC or DEC is a block in one of the two modes. -/
theorem exists_mode_of_decode {f : List Byte} {b : Nat} (h : decode f = .ok (.enc b) ∨ decode f = .ok (.dec b)) :
    ∃ d, ∀ s, beginFrame f s = startBlock d b s ∧ runFrame f s = cipherBlock d b s := by
  rcases h with h | h
  · exact ⟨.enc, fun s => ⟨beginFrame_ok h s, runFrame_ok h s⟩⟩
  · exact ⟨.dec, fun s => ⟨beginFrame_ok h s, runFrame_ok h s⟩⟩

/-- A run goes on from where its first `n` steps lead. -/
theorem run_add {s t : State} {n : Nat} (h : core.run n s = .next t) (m : Nat) :
    core.run (n + m) s = core.run m t := by
  induction n generalizing s with
  | zero =>
    obtain rfl : s = t := Host.Outcome.next.inj h
    rw [Nat.zero_add]
  | succ n ih =>
    obtain ⟨u, hu, hrun⟩ := run_succ_next h
    rw [Nat.add_right_comm, run_succ hu, ih hrun]

section Flight

variable {s : State} {d : Mode} {p q : Word × Word} {n : Nat}

/-- While no reset comes, a step with any working registers is the transition they enable. -/
theorem step_writeWorking (hbusy : s.busy = true) (hinbox : ∀ rest, s.inbox ≠ .reset :: rest) (r : BitVec 6) :
    step (s.writeWorking d p r) = advance (s.writeWorking d p r) :=
  step_busy hbusy hinbox

/-- Loop invariant of a command in flight: after `n` steps the working registers hold the halves after `n` rounds. -/
theorem run_rounds (hs : Configured s) (hbusy : s.busy = true) (hinbox : ∀ rest, s.inbox ≠ .reset :: rest)
    (hn : n ≤ 32) (hq : network s.sbox s.k d p n = some q) :
    core.run n (s.writeWorking d p 0) = .next (s.writeWorking d q (BitVec.ofNat 6 n)) := by
  induction n generalizing q with
  | zero =>
    obtain rfl : p = q := Option.some.inj hq
    rfl
  | succ n ih =>
    rw [network_succ] at hq
    obtain ⟨p', hp', hmix⟩ := Option.bind_eq_some_iff.1 hq
    have rnd : (BitVec.ofNat 6 n).toNat = n := Nat.mod_eq_of_lt (by omega)
    have round : advance (s.writeWorking d p' (BitVec.ofNat 6 n)) =
        .next (s.writeWorking d q (BitVec.ofNat 6 (n + 1))) := by
      rw [BitVec.ofNat_add]
      exact advance_round hs.kv hs.sv (by rw [State.writeWorking_rnd, rnd]; omega)
        (by rw [State.writeWorking_rnd, rnd]; exact hmix)
    rw [run_add (ih (by omega) hp') 1]
    exact run_succ ((step_writeWorking hbusy hinbox _).trans round) 0

/-- 32 rounds and the finish: the state that the atomic command leaves. -/
theorem run_flight (hs : Configured s) (hbusy : s.busy = true) (hinbox : ∀ rest, s.inbox ≠ .reset :: rest)
    (hq : network s.sbox s.k d p 32 = some q) :
    core.run 33 (s.writeWorking d p 0) = .next ((s.writeWorking d q 32).respond (.ok64 (merge q))) := by
  have finish : step (s.writeWorking d q 32) = .next ((s.writeWorking d q 32).respond (.ok64 (merge q))) :=
    (step_writeWorking hbusy hinbox 32).trans (advance_finish rfl)
  rw [run_add (run_rounds hs hbusy hinbox le_rfl hq) 1]
  exact run_succ finish 0

end Flight

/-- Settles O42: the first step puts the block in flight, and 33 more lead to the state of the atomic command. -/
theorem steppedAgreesWithAtomic : Obligations.SteppedAgreesWithAtomic := by
  intro s f rest b hbusy hinbox hrest hs hb hd
  obtain ⟨d, hframe⟩ := exists_mode_of_decode hd
  have configured : Configured (s.accept rest) := ⟨hs.kv, hs.sv, hs.cells⟩
  have passed : blockError b (s.accept rest) = none := blockError_eq_none_iff.2 ⟨hs.kv, hs.sv, hb⟩
  obtain ⟨lr, hlr⟩ := network_some configured.cells s.k d (split (BitVec.ofNat 64 b)) 32
  have start : step s = .next ((s.accept rest).writeWorking d (split (BitVec.ofNat 64 b)) 0) := by
    rw [step_stepped hbusy hinbox, (hframe _).1, startBlock_ok passed]
    rfl
  have stepped : core.run 34 s = .next (((s.accept rest).writeWorking d lr 32).respond (.ok64 (merge lr))) :=
    (run_succ start 33).trans (run_flight configured rfl hrest hlr)
  have atomic : step { s with inbox := .frame f :: rest } =
      .next (((s.accept rest).writeWorking d lr 32).respond (.ok64 (merge lr))) := by
    rw [step_frame (s := { s with inbox := .frame f :: rest }) hbusy rfl, (hframe _).2]
    exact cipherBlock_ok passed hlr
  exact stepped.trans atomic.symm

end Sys2Proof.Machine
end

section
/-!
PROOFS. Decryption: the DEC subkey order is that of ENC reversed, so either command undoes the other; with palindromic
subkeys the two are one function.
-/

namespace Sys2Proof.Machine

/-! ### The DEC subkey order (43_decrypt.md R102) -/

/-- R102, written out: `K0..K7`, then `K7..K0` three times. -/
theorem subkeyOrder_dec :
    subkeyOrder .dec 32 =
      [0, 1, 2, 3, 4, 5, 6, 7, 7, 6, 5, 4, 3, 2, 1, 0, 7, 6, 5, 4, 3, 2, 1, 0, 7, 6, 5, 4, 3, 2, 1, 0] := by
  decide

/-- The two orders are each other's mirror image. -/
theorem subkeyOrder_dec_eq_reverse : subkeyOrder .dec 32 = (subkeyOrder .enc 32).reverse := by
  rw [subkeyOrder_dec, subkeyOrder_enc]; rfl

/-- Settles O18: on a configured core the rounds have a result, and they are the fold over R102's order. -/
theorem decRunsItsSchedule : Obligations.DecRunsItsSchedule := by
  intro b s hs
  obtain ⟨lr, hlr, hnext⟩ := hs.cipherBlock_eq .dec b
  rw [network_eq_foldlM, subkeyOrder_dec] at hlr
  exact ⟨_, lr, hnext, hlr, rfl, rfl, rfl, ⟨rfl, rfl, rfl, rfl, rfl⟩, rfl⟩

/-! ### Either command undoes the other (43_decrypt.md R103, R104) -/

/-- Rounds are undone from the last to the first: the same subkeys in the opposite order, on the swapped halves. -/
theorem foldlM_mix_reverse {m : Memory} {ks : Vector Word 8} {is : List (Fin 8)} {p q : Word × Word}
    (h : is.foldlM (fun p i => mix m p ks[i]) p = some q) :
    is.reverse.foldlM (fun p i => mix m p ks[i]) q.swap = some p.swap := by
  induction is generalizing p with
  | nil =>
    obtain rfl : p = q := Option.some.inj h
    rfl
  | cons i is ih =>
    obtain ⟨p', hfirst, hrest⟩ := Option.bind_eq_some_iff.1 h
    have undone : mix m p'.swap ks[i] = some p.swap := mixUndoesItself m p p' ks[i] hfirst
    rw [List.reverse_cons, List.foldlM_append, ih hrest]
    simpa using undone

/-- A merged result splits into the swapped halves, so the command with the reversed subkey order starts where
the undoing rounds start, and it merges their result to the block. -/
theorem Configured.cipherBlock_undone {s s' : State} (hs : Configured s) (hsame : SameConfig s s') {d d' : Mode}
    (hrev : subkeyOrder d' 32 = (subkeyOrder d 32).reverse) (b : Block) :
    ∃ c t u, cipherBlock d b.toNat s = .next t ∧ t.sent = s.sent ++ [responseFrame (.ok64 c)] ∧
      cipherBlock d' c.toNat s' = .next u ∧ u.sent = s'.sent ++ [responseFrame (.ok64 b)] := by
  obtain ⟨lr, hlr, hnext⟩ := hs.cipherBlock_eq d b
  have undone : network s'.sbox s'.k d' (split (merge lr)) 32 = some (split b).swap := by
    rw [network_eq_foldlM] at hlr
    rw [network_eq_foldlM, hsame.sbox, hsame.k, hrev, split_merge, foldlM_mix_reverse hlr]
  have hnext' := cipherBlock_of_network (hsame.kv.trans hs.kv) (hsame.sv.trans hs.sv) undone
  rw [merge_split] at hnext'
  exact ⟨merge lr, _, _, hnext, rfl, hnext', rfl⟩

/-- Settles O34: DEC has the reversed subkey order of ENC. -/
theorem decryptUndoesEncrypt : Obligations.DecryptUndoesEncrypt :=
  fun b _ _ hs hsame => hs.cipherBlock_undone hsame subkeyOrder_dec_eq_reverse b

/-- Settles O35: ENC has the reversed subkey order of DEC. -/
theorem encryptUndoesDecrypt : Obligations.EncryptUndoesDecrypt :=
  fun b _ _ hs hsame => hs.cipherBlock_undone hsame (List.reverse_eq_iff.1 subkeyOrder_dec_eq_reverse.symm) b

/-! ### Palindromic subkeys (43_decrypt.md R105) -/

/-- In every round the two modes select the same subkey, or the one at the mirrored index. -/
theorem ksel_dec_eq_or_rev (c : BitVec 5) : ksel .dec c = ksel .enc c ∨ ksel .dec c = (ksel .enc c).rev := by
  revert c; decide

theorem roundKey_dec_of_palindromic {ks : Vector Word 8} (hks : ∀ i : Fin 8, ks[i] = ks[i.rev]) (j : Nat) :
    roundKey ks .dec j = roundKey ks .enc j := by
  unfold roundKey
  rcases ksel_dec_eq_or_rev (BitVec.ofNat 5 j) with h | h
  · rw [h]
  · rw [h]; exact (hks _).symm

theorem network_dec_of_palindromic {ks : Vector Word 8} (hks : ∀ i : Fin 8, ks[i] = ks[i.rev]) (m : Memory)
    (p : Word × Word) (n : Nat) : network m ks .dec p n = network m ks .enc p n := by
  induction n with
  | zero => rfl
  | succ n ih => rw [network_succ, network_succ, ih, roundKey_dec_of_palindromic hks]

/-- Settles O36: round by round the subkeys are the same, and so are the halves that the two commands merge. -/
theorem palindromicKeyEncIsDec : Obligations.PalindromicKeyEncIsDec := by
  intro b s hs hks
  obtain ⟨lr, hlr, henc⟩ := hs.cipherBlock_eq .enc b
  have hdec := cipherBlock_of_network hs.kv hs.sv ((network_dec_of_palindromic hks s.sbox (split b) 32).trans hlr)
  exact ⟨merge lr, _, _, henc, hdec, rfl, rfl⟩

end Sys2Proof.Machine
end

section
/-!
PROOFS. Loading the substitution table: LDSBOX on a table that passes both checks, and the cell each operand value
becomes.
-/

namespace Sys2Proof.Machine

/-- A table of the right shape with no cell above 15 is stored, sets `SV` and is answered OK
(44_table_load_and_construction.md R111). -/
theorem execLdsbox_of_checks {tbl : List (List Nat)} (hshape : shapeOK tbl = true) (hrange : rangeOK tbl = true)
    (s : State) :
    execLdsbox tbl s = .next (((s.writeTable (storeTable tbl s.sbox)).setSV).respond .ok) := by
  rw [execLdsbox, if_pos hshape, if_pos hrange]

/-- A table that passes both checks has a value at every row and column, and keeping its low four bits loses nothing
(44_table_load_and_construction.md R113, R114). -/
theorem getElem?_eq_tableCell {tbl : List (List Nat)} (hlen : tbl.length = 8)
    (hrows : ∀ row ∈ tbl, row.length = 16 ∧ ∀ c ∈ row, c ≤ 15) {i v : Nat} (hi : i < 8) (hv : v < 16) :
    (tbl[i]?.bind fun row => row[v]?) = some (tableCell tbl i v).toNat := by
  have hi' : i < tbl.length := hlen ▸ hi
  obtain ⟨hcols, hcells⟩ := hrows tbl[i] (List.getElem_mem hi')
  have hv' : v < tbl[i].length := hcols ▸ hv
  have hcell : tbl[i][v] % 16 = tbl[i][v] := Nat.mod_eq_of_lt (Nat.lt_succ_of_le (hcells _ (List.getElem_mem hv')))
  simp [tableCell, hi', hv', hcell]

/-- Settles O16: both checks pass, so LDSBOX stores the table. Of the stored memory only its reads matter, so it is
named `m`: the checks of the record by `rfl` would otherwise run the 128 writes. -/
theorem ldsboxStoresCellForCell : Obligations.LdsboxStoresCellForCell := by
  intro tbl s hlen hrows
  have hshape : shapeOK tbl = true := shapeOK_iff.2 ⟨hlen, fun row h => (hrows row h).1⟩
  have hrange : rangeOK tbl = true := rangeOK_iff.2 fun row h => (hrows row h).2
  have hexec := execLdsbox_of_checks hshape hrange s
  have hcell := @storeTable_read tbl s.sbox
  have hother := @storeTable_read_other tbl s.sbox
  generalize storeTable tbl s.sbox = m at hexec hcell hother
  refine ⟨_, hexec, rfl, fun i hi v hv => ?_, fun a ha => hother ha, rfl⟩
  exact ⟨tableCell tbl i v, hcell hi hv, getElem?_eq_tableCell hlen hrows hi hv, rfl⟩

end Sys2Proof.Machine
end

section
/-!
PROOFS. The errors: every frame is answered once, which check of a command fails first, when each error is raised, and
that an error writes nothing.
-/

namespace Sys2Proof.Machine

/-! ### Every frame answers (60_exceptions.md R127) -/

/-- Only the rounds of ENC and DEC can refuse, and on a loaded table they do not. -/
theorem exec_answers {s : State} (hs : s.sv = true → s.sbox.loaded) (i : Instr) : Answers (exec i s) := by
  cases i with
  | ldkey key => rw [exec, execLdkey]; split_ifs <;> exact ⟨_, rfl⟩
  | ldsbox tbl => rw [exec, execLdsbox]; split_ifs <;> exact ⟨_, rfl⟩
  | enc b | dec b => exact cipherBlock_answers hs _ b
  | rdsk => rw [exec, execRdsk]; split_ifs <;> exact ⟨_, rfl⟩

theorem runFrame_answers {s : State} (hs : s.sv = true → s.sbox.loaded) (f : List Byte) :
    Answers (runFrame f s) := by
  cases hd : decode f with
  | ok i => rw [runFrame_ok hd]; exact exec_answers hs i
  | error e => exact ⟨_, runFrame_error hd s⟩

/-! ### The checks of a command (60_exceptions.md R121 to R124) -/

/-- The error of the first check of a command that fails, if one does. -/
def commandError (i : Instr) (s : State) : Option CommandError :=
  match i with
  | .ldkey key => if keyOK key then none else some .rangeError
  | .ldsbox tbl => if shapeOK tbl then if rangeOK tbl then none else some .rangeError else some .shapeError
  | .enc b | .dec b => blockError b s
  | .rdsk => if s.keyReady then none else some .notReady

theorem keyOK_eq_false_iff {key : Nat} : keyOK key = false ↔ 2 ^ 256 ≤ key := by
  rw [← Bool.not_eq_true, keyOK_iff, not_lt]

theorem shapeOK_eq_false_iff {tbl : List (List Nat)} :
    shapeOK tbl = false ↔ ¬(tbl.length = 8 ∧ ∀ row ∈ tbl, row.length = 16) := by
  rw [← Bool.not_eq_true, shapeOK_iff]

theorem rangeOK_eq_false_iff {tbl : List (List Nat)} :
    rangeOK tbl = false ↔ ∃ row ∈ tbl, ∃ c ∈ row, 15 < c := by
  simp [rangeOK]

theorem blockError_ne_shapeError (b : Nat) (s : State) : blockError b s ≠ some .shapeError := by
  unfold blockError
  split_ifs <;> simp

/-- Only LDSBOX has a shape to check. -/
theorem commandError_eq_shapeError_iff {i : Instr} {s : State} :
    commandError i s = some .shapeError ↔
      ∃ tbl, i = .ldsbox tbl ∧ ¬(tbl.length = 8 ∧ ∀ row ∈ tbl, row.length = 16) := by
  simp only [← shapeOK_eq_false_iff]
  cases i with
  | ldkey key => simp [commandError]
  | ldsbox tbl => cases hshape : shapeOK tbl <;> simp [commandError, hshape]
  | enc b | dec b => simp [commandError, blockError_ne_shapeError]
  | rdsk => simp [commandError]

/-- A command of which a check fails raises the error of the first that does. -/
theorem exec_raise {i : Instr} {s : State} {e : CommandError} (he : commandError i s = some e) :
    exec i s = .next (s.raise e) := by
  cases i with
  | ldkey key =>
    obtain ⟨hkey, rfl⟩ : keyOK key = false ∧ .rangeError = e := by simpa [commandError] using he
    simp [exec, execLdkey, hkey]
  | ldsbox tbl =>
    cases hshape : shapeOK tbl with
    | false =>
      obtain rfl : .shapeError = e := by simpa [commandError, hshape] using he
      simp [exec, execLdsbox, hshape]
    | true =>
      obtain ⟨hrange, rfl⟩ : rangeOK tbl = false ∧ .rangeError = e := by simpa [commandError, hshape] using he
      simp [exec, execLdsbox, hshape, hrange]
  | enc b | dec b => exact cipherBlock_raise he
  | rdsk =>
    obtain ⟨hkey, rfl⟩ : s.keyReady = false ∧ .notReady = e := by simpa [commandError] using he
    simp [exec, execRdsk, hkey]

/-- A command that answers raises the error of a check that failed, or responds with status 0. -/
theorem exec_cases {i : Instr} {s t : State} (h : exec i s = .next t) :
    (∃ e, commandError i s = some e ∧ t = s.raise e) ∨
    ∃ r, (responseFrame r).head? = some 0x00 ∧ t.sent = s.sent ++ [responseFrame r] := by
  cases i with
  | ldkey key =>
    rcases execLdkey_next h with ⟨hkey, rfl⟩ | ⟨-, rfl⟩
    · exact .inl ⟨_, if_neg (mt keyOK_iff.1 hkey), rfl⟩
    · exact .inr ⟨.ok, rfl, rfl⟩
  | ldsbox tbl =>
    rcases execLdsbox_next h with ⟨hshape, rfl⟩ | ⟨hshape, hrange, rfl⟩ | ⟨-, -, rfl⟩
    · exact .inl ⟨_, by simp [commandError, hshape], rfl⟩
    · exact .inl ⟨_, by simp [commandError, hshape, hrange], rfl⟩
    · exact .inr ⟨.ok, rfl, by simp⟩
  | enc b | dec b =>
    rcases cipherBlock_next h with hraise | ⟨lr, -, -, rfl⟩
    · exact .inl hraise
    · exact .inr ⟨.ok64 (merge lr), rfl, rfl⟩
  | rdsk =>
    rcases execRdsk_next h with ⟨hkv, rfl⟩ | ⟨-, rfl⟩
    · exact .inl ⟨_, by simp [commandError, State.keyReady, hkv], rfl⟩
    · exact .inr ⟨.ok8x32 s.k, rfl, rfl⟩

/-- A frame that answers raises an error, or its command responds with status 0. -/
theorem runFrame_cases {f : List Byte} {s t : State} (h : runFrame f s = .next t) :
    (∃ e, t = s.raise e) ∨
    (∃ r, (responseFrame r).head? = some 0x00 ∧ t.sent = s.sent ++ [responseFrame r]) ∧
      t.busy = false ∧ t.inbox = s.inbox := by
  cases hd : decode f with
  | error e => exact .inl ⟨e, Host.Outcome.next.inj (h.symm.trans (runFrame_error hd s))⟩
  | ok i =>
    rw [runFrame_ok hd] at h
    obtain ⟨hbusy, hinbox, -⟩ := commandFrame i s t h
    rcases exec_cases h with ⟨e, -, ht⟩ | hok
    · exact .inl ⟨e, ht⟩
    · exact .inr ⟨hok, hbusy, hinbox⟩

/-- Settles O13: the frame answers, and an error is one response as much as a result is. -/
theorem oneResponsePerFrame : Obligations.OneResponsePerFrame := by
  intro s f hs
  obtain ⟨t, ht⟩ := runFrame_answers hs f
  rcases runFrame_cases ht with ⟨e, rfl⟩ | ⟨⟨r, -, hsent⟩, hbusy, hinbox⟩
  · exact ⟨_, .err e, ht, rfl, rfl, rfl⟩
  · exact ⟨t, r, ht, hsent, hbusy, hinbox⟩

/-- Settles O23: a response with another status than 0 was raised, and `raise` touches `BUSY` and the responses
alone. -/
theorem errorWritesNothing : Obligations.ErrorWritesNothing := by
  intro s t f st data h hsent hst
  rcases runFrame_cases h with ⟨e, rfl⟩ | ⟨⟨r, hr, hsent'⟩, -, -⟩
  · have hdata : st = errorCode e ∧ data = [] := by simpa [eq_comm] using hsent
    exact ⟨⟨⟨rfl, rfl, rfl, rfl, rfl⟩, rfl, rfl, rfl, rfl, rfl⟩, rfl, hdata.2⟩
  · have hframe : responseFrame r = st :: data := by simpa [hsent'] using hsent
    rw [hframe] at hr
    exact absurd (Option.some.inj hr) hst

/-! ### Each error and its causes (60_exceptions.md R122 to R124) -/

theorem errorCode_injective : Function.Injective errorCode := by
  intro e e' h
  cases e <;> cases e' <;> simp [errorCode] at h ⊢

/-- Settles O20: the shape is the first check of LDSBOX; of all errors ShapeError alone has status 1, and LDSBOX alone
raises it. -/
theorem shapeErrorRaised : Obligations.ShapeErrorRaised := by
  constructor
  · intro tbl s hshape
    exact exec_raise (commandError_eq_shapeError_iff.2 ⟨tbl, rfl, hshape⟩)
  · intro i s t h hsent
    rcases exec_cases h with ⟨e, he, rfl⟩ | ⟨r, hr, hsent'⟩
    · have hcode : errorCode e = errorCode .shapeError := by simpa [errorCode] using hsent
      exact commandError_eq_shapeError_iff.1 (errorCode_injective hcode ▸ he)
    · have hframe : responseFrame r = [0x01] := by simpa [hsent'] using hsent
      rw [hframe] at hr
      exact absurd (Option.some.inj hr) (by decide)

theorem commandError_ldsbox_rangeError {tbl : List (List Nat)} (hlen : tbl.length = 8)
    (hrows : ∀ row ∈ tbl, row.length = 16) (hcell : ∃ row ∈ tbl, ∃ c ∈ row, 15 < c) (s : State) :
    commandError (.ldsbox tbl) s = some .rangeError := by
  simp [commandError, shapeOK_iff.2 ⟨hlen, hrows⟩, rangeOK_eq_false_iff.2 hcell]

/-- Settles O21: the range is the last check of each command, so what stands before it must have passed. -/
theorem rangeErrorRaised : Obligations.RangeErrorRaised := by
  refine ⟨fun tbl s hlen hrows hcell => ?_, fun b s hkv hsv hb => ?_, fun key s hkey => ?_⟩
  · exact exec_raise (commandError_ldsbox_rangeError hlen hrows hcell s)
  · have hrange : blockError b s = some .rangeError := blockError_rangeError hkv hsv (by omega)
    exact ⟨cipherBlock_raise hrange, cipherBlock_raise hrange⟩
  · have hrange : keyOK key = false := keyOK_eq_false_iff.2 (by omega)
    exact exec_raise (i := .ldkey key) (e := .rangeError) (by simp [commandError, hrange])

/-- Settles O22: readiness is the first check of ENC and DEC and the only one of RDSK. -/
theorem notReadyRaised : Obligations.NotReadyRaised := by
  constructor
  · intro b s hflags
    have hready : blockError b s = some .notReady := blockError_notReady hflags
    exact ⟨cipherBlock_raise hready, cipherBlock_raise hready⟩
  · intro s hkv
    exact exec_raise (i := .rdsk) (e := .notReady) (by simp [commandError, State.keyReady, hkv])

/-! ### The order of the checks (60_exceptions.md R128)

What each command sends, in the order of its checks. -/

theorem execLdkey_sent {key : Nat} {s t : State} (h : execLdkey key s = .next t) :
    if 2 ^ 256 ≤ key then t.sent = s.sent ++ [[0x02]] else t.sent = s.sent ++ [[0x00]] := by
  rcases execLdkey_next h with ⟨hkey, rfl⟩ | ⟨hkey, rfl⟩
  · rw [if_pos (not_lt.1 hkey)]; rfl
  · rw [if_neg (not_le.2 hkey)]; rfl

theorem execLdsbox_sent {tbl : List (List Nat)} {s t : State} (h : execLdsbox tbl s = .next t) :
    if ¬(tbl.length = 8 ∧ ∀ row ∈ tbl, row.length = 16) then t.sent = s.sent ++ [[0x01]]
    else if ∃ row ∈ tbl, ∃ c ∈ row, 15 < c then t.sent = s.sent ++ [[0x02]]
    else t.sent = s.sent ++ [[0x00]] := by
  simp only [← shapeOK_eq_false_iff, ← rangeOK_eq_false_iff]
  rcases execLdsbox_next h with ⟨hshape, rfl⟩ | ⟨hshape, hrange, rfl⟩ | ⟨hshape, hrange, rfl⟩
  · simp [hshape, errorCode]
  · simp [hshape, hrange, errorCode]
  · simp [hshape, hrange, responseFrame]

theorem execRdsk_sent {s t : State} (h : execRdsk s = .next t) :
    if s.kv = false then t.sent = s.sent ++ [[0x03]] else t.sent = s.sent ++ [responseFrame (.ok8x32 s.k)] := by
  rcases execRdsk_next h with ⟨hkv, rfl⟩ | ⟨hkv, rfl⟩
  · rw [if_pos hkv]; rfl
  · rw [if_neg (by simp [hkv])]; rfl

theorem cipherBlock_sent {d : Mode} {b : Nat} {s t : State} (h : cipherBlock d b s = .next t) :
    if s.kv = false ∨ s.sv = false then t.sent = s.sent ++ [[0x03]]
    else if 2 ^ 64 ≤ b then t.sent = s.sent ++ [[0x02]]
    else ∃ v, t.sent = s.sent ++ [responseFrame (.ok64 v)] := by
  split_ifs with hready hrange
  · cases h.symm.trans (cipherBlock_raise (blockError_notReady hready))
    rfl
  · obtain ⟨hkv, hsv⟩ : s.kv = true ∧ s.sv = true := by simpa using hready
    cases h.symm.trans (cipherBlock_raise (blockError_rangeError hkv hsv hrange))
    rfl
  · obtain ⟨hkv, hsv⟩ : s.kv = true ∧ s.sv = true := by simpa using hready
    have passed : blockError b s = none := blockError_eq_none_iff.2 ⟨hkv, hsv, not_le.1 hrange⟩
    rcases cipherBlock_next h with ⟨e, he, -⟩ | ⟨lr, -, -, rfl⟩
    · cases passed.symm.trans he
    · exact ⟨merge lr, rfl⟩

theorem runFrame_error_sent {f : List Byte} {e : CommandError} {s t : State} (hd : decode f = .error e)
    (h : runFrame f s = .next t) : t.sent = s.sent ++ [[errorCode e]] := by
  cases h.symm.trans (runFrame_error hd s)
  rfl

/-- Settles O24: the decoder's checks come first, in its order, and each command then has its own. -/
theorem errorPriority : Obligations.ErrorPriority := by
  intro s f hs
  obtain ⟨t, ht⟩ := runFrame_answers hs f
  refine ⟨t, ht, ?_⟩
  cases f with
  | nil => exact runFrame_error_sent decode_nil ht
  | cons op body =>
    rw [if_neg (List.cons_ne_nil op body)]
    simp only [List.head?_cons, Option.all_some, decide_eq_true_eq]
    by_cases hop : op = 0x00 ∨ 0x06 ≤ op
    · rw [if_pos hop]
      exact runFrame_error_sent (decode_reserved hop body) ht
    · rw [if_neg hop]
      cases hd : decode (op :: body) with
      | error e =>
        obtain rfl : e = .frameError := (decode_error_cases hd).resolve_right fun h => hop h.2
        exact runFrame_error_sent hd ht
      | ok i =>
        rw [runFrame_ok hd] at ht
        cases i with
        | ldkey key => exact execLdkey_sent ht
        | ldsbox tbl => exact execLdsbox_sent ht
        | enc b | dec b => exact cipherBlock_sent ht
        | rdsk => exact execRdsk_sent ht

end Sys2Proof.Machine
end

section
/-!
PROOFS. The legal states: every step from one answers, and answers another (10_state.md R18, R19, R21; 20_memory.md R33;
60_exceptions.md R119, R139).
-/

namespace Sys2Proof.Machine

/-! ### What `Inv` says apart from `BUSY` -/

/-- The clauses of `Inv` on the registers. A frame runs with `BUSY` set before its readiness is checked, so it is these
that an accepted frame starts from, and not `Inv`. -/
structure LegalRegisters (s : State) : Prop where
  memory : s.sbox.wf
  subkeys : s.kv = true → s.k = derive s.key
  table : s.sv = true → s.sbox.loaded
  rounds : s.rnd.toNat ≤ Config.nRounds

theorem Inv.legalRegisters {s : State} (h : Inv s) : LegalRegisters s :=
  ⟨h.memory, h.subkeys, h.table, h.rounds⟩

namespace LegalRegisters

variable {s : State}

theorem inv (h : LegalRegisters s) (hflight : s.busy = true → s.kv = true ∧ s.sv = true) : Inv s :=
  ⟨h.memory, h.subkeys, h.table, h.rounds, hflight⟩

theorem inv_of_idle (h : LegalRegisters s) (hbusy : s.busy = false) : Inv s :=
  h.inv fun hb => by simp [hbusy] at hb

theorem accept (h : LegalRegisters s) (rest : List HostAction) : LegalRegisters (s.accept rest) :=
  ⟨h.memory, h.subkeys, h.table, h.rounds⟩

theorem respond (h : LegalRegisters s) (r : Response) : LegalRegisters (s.respond r) :=
  ⟨h.memory, h.subkeys, h.table, h.rounds⟩

theorem raise (h : LegalRegisters s) (e : CommandError) : LegalRegisters (s.raise e) :=
  h.respond (.err e)

theorem setBusy (h : LegalRegisters s) : LegalRegisters s.setBusy :=
  ⟨h.memory, h.subkeys, h.table, h.rounds⟩

theorem writeWorking (h : LegalRegisters s) (d : Mode) (p : Word × Word) {n : BitVec 6}
    (hn : n.toNat ≤ Config.nRounds) : LegalRegisters (s.writeWorking d p n) :=
  ⟨h.memory, h.subkeys, h.table, hn⟩

theorem writeKey (h : LegalRegisters s) (key : Key) : LegalRegisters (s.writeKey key (derive key)).setKV :=
  ⟨h.memory, fun _ => rfl, h.table, h.rounds⟩

theorem writeTable (h : LegalRegisters s) {m : Memory} (hm : m.wf) (hload : m.loaded) :
    LegalRegisters (s.writeTable m).setSV :=
  ⟨hm, h.subkeys, fun _ => hload, h.rounds⟩

end LegalRegisters

/-! ### Every transition keeps the legal states -/

/-- Each command writes a key with its own subkeys, a whole table in canonical form, or `RND = 32`. -/
theorem exec_keeps_legal {i : Instr} {s t : State} (hs : LegalRegisters s) (h : exec i s = .next t) : Inv t := by
  have idle : t.busy = false := (commandFrame i s t h).1
  refine LegalRegisters.inv_of_idle ?_ idle
  rcases exec_next h with ⟨e, rfl⟩ | ⟨key, -, -, rfl⟩ | ⟨tbl, -, -, -, rfl⟩ | ⟨d, b, lr, -, rfl⟩ | ⟨-, rfl⟩
  · exact hs.raise e
  · exact (hs.writeKey _).respond _
  · exact (hs.writeTable (storeTable_wf tbl hs.memory) (storeTable_loaded tbl s.sbox)).respond _
  · exact (hs.writeWorking d lr le_rfl).respond _
  · exact hs.respond _

/-- A block goes in flight only with both flags set. -/
theorem beginCommand_keeps_legal {i : Instr} {s t : State} (hs : LegalRegisters s)
    (h : beginCommand i s = .next t) : Inv t := by
  rcases beginCommand_next h with hexec | ⟨d, b, -, hpassed, rfl⟩
  · exact exec_keeps_legal hs hexec
  · obtain ⟨hkv, hsv, -⟩ := blockError_eq_none_iff.1 hpassed
    exact (hs.writeWorking d _ (Nat.zero_le _)).setBusy.inv fun _ => ⟨hkv, hsv⟩

theorem raise_keeps_legal {s : State} (hs : LegalRegisters s) (e : CommandError) : Inv (s.raise e) :=
  (hs.raise e).inv_of_idle rfl

theorem runFrame_keeps_legal {f : List Byte} {s t : State} (hs : LegalRegisters s) (h : runFrame f s = .next t) :
    Inv t := by
  cases hd : decode f with
  | ok i => exact exec_keeps_legal hs (runFrame_ok hd s ▸ h)
  | error e =>
    cases h.symm.trans (runFrame_error hd s)
    exact raise_keeps_legal hs e

theorem beginFrame_keeps_legal {f : List Byte} {s t : State} (hs : LegalRegisters s)
    (h : beginFrame f s = .next t) : Inv t := by
  cases hd : decode f with
  | ok i => exact beginCommand_keeps_legal hs (beginFrame_ok hd s ▸ h)
  | error e =>
    cases h.symm.trans (beginFrame_error hd s)
    exact raise_keeps_legal hs e

/-- While a round is left, counting it does not wrap round the 6 bits of `RND` (10_state.md R21). -/
theorem rnd_succ_toNat {n : BitVec 6} (hn : n.toNat < 32) : (n + 1).toNat = n.toNat + 1 := by
  rw [BitVec.toNat_add_of_lt (by simp; omega)]
  rfl

theorem advance_keeps_legal {s t : State} (hs : LegalRegisters s) (h : advance s = .next t) : Inv t := by
  rcases advance_next h with ⟨lr, hkv, hsv, hrnd, -, rfl⟩ | ⟨-, rfl⟩
  · have counted : (s.rnd + 1).toNat ≤ Config.nRounds := (rnd_succ_toNat hrnd).trans_le hrnd
    exact (hs.writeWorking s.mode lr counted).inv fun _ => ⟨hkv, hsv⟩
  · exact (hs.respond _).inv_of_idle rfl

/-- Settles O46: a reset clears what `Inv` speaks of, waiting changes nothing, and every other step is a transition that
keeps the registers legal. -/
theorem stepKeepsLegal : Obligations.StepKeepsLegal := by
  intro s t hs h
  have hregs := hs.legalRegisters
  rcases step_cases h with ⟨rest, -, rfl⟩ | ⟨-, -, hadv⟩ | ⟨-, -, rfl⟩ | ⟨f, rest, -, -, hrun⟩ | ⟨f, rest, -, -, hrun⟩
  · exact inv_of_cleared rfl rfl rfl rfl rfl
  · exact advance_keeps_legal hregs hadv
  · exact hs
  · exact runFrame_keeps_legal (hregs.accept rest) hrun
  · exact beginFrame_keeps_legal (hregs.accept rest) hrun

/-! ### Every legal state answers -/

theorem beginFrame_answers {s : State} (hs : s.sv = true → s.sbox.loaded) (f : List Byte) :
    Answers (beginFrame f s) := by
  cases hd : decode f with
  | error e => exact ⟨_, beginFrame_error hd s⟩
  | ok i =>
    rw [beginFrame_ok hd]
    cases i with
    | enc b => exact startBlock_answers .enc b s
    | dec b => exact startBlock_answers .dec b s
    | ldkey key => exact exec_answers hs (.ldkey key)
    | ldsbox tbl => exact exec_answers hs (.ldsbox tbl)
    | rdsk => exact exec_answers hs .rdsk

/-- An idle core answers whatever the host does next. -/
theorem takeAction_answers {s : State} (hs : s.sv = true → s.sbox.loaded) : Answers (takeAction s) := by
  unfold takeAction
  split
  · exact ⟨_, rfl⟩
  · exact runFrame_answers (s := s.accept _) hs _
  · exact beginFrame_answers (s := s.accept _) hs _
  · exact ⟨_, rfl⟩
  · exact ⟨_, rfl⟩

/-- A legal core with a command in flight holds the key and the table that its rounds read. -/
theorem Inv.configured {s : State} (hs : Inv s) (hbusy : s.busy = true) : Configured s :=
  have ⟨hkv, hsv⟩ := hs.inFlight hbusy
  ⟨hkv, hsv, hs.table hsv⟩

/-- Settles O47: a reset and an idle core always answer; in flight the invariant gives the flags, the cells and the bound
on `RND` that a transition needs. -/
theorem legalStatesAnswer : Obligations.LegalStatesAnswer := by
  intro s hs
  by_cases hreset : ∃ rest, s.inbox = .reset :: rest
  · obtain ⟨rest, hi⟩ := hreset
    exact ⟨_, step_reset hi⟩
  · cases hbusy : s.busy with
    | false =>
      rw [step_idle hbusy]
      exact takeAction_answers hs.table
    | true =>
      obtain ⟨hkv, hsv, hcells⟩ := hs.configured hbusy
      rw [step_busy hbusy (not_exists.1 hreset)]
      exact advance_answers hkv hsv hcells hs.rounds

end Sys2Proof.Machine
end

section
/-!
PROOFS. What an idle core does with the next host action: a frame, a placed word, silence, a reset; and what no host
action brings about.
-/

namespace Sys2Proof.Machine

/-! ### Frames (30_encoding.md R57; 20_memory.md R40) -/

/-- Settles O8: an accepted frame runs, and a frame that decodes runs as its command. -/
theorem stepRunsDecodedCommand : Obligations.StepRunsDecodedCommand := by
  intro s f rest hbusy hinbox
  have hstep : step s = runFrame f (s.accept rest) := step_frame hbusy hinbox
  exact ⟨hstep, fun i hd => hstep.trans (runFrame_ok hd _)⟩

theorem decodeTableWord_eq_some_iff {nbits w : Nat} {i : Instr} :
    decodeTableWord nbits w = some i ↔ decode (frameOfWord nbits w) = .ok i := by
  unfold decodeTableWord
  split <;> simp_all

/-- Settles O9: the placed frame is the head of what is offered, and accepting it leaves the rest as it was. -/
theorem placedWordRuns : Obligations.PlacedWordRuns := by
  intro s nbits w i hword
  have hd : decode (frameOfWord nbits w) = .ok i := decodeTableWord_eq_some_iff.1 hword
  calc step (s.withFetchWord nbits w)
    _ = runFrame (frameOfWord nbits w) ((s.withFetchWord nbits w).accept s.inbox) := step_frame rfl rfl
    _ = exec i ((s.withFetchWord nbits w).accept s.inbox) := runFrame_ok hd _

/-- Settles O51: offered to an idle core, the frame is accepted and decodes to the command that it encodes. -/
theorem canonicalFrameIsItsCommand : Obligations.CanonicalFrameIsItsCommand := by
  intro i s hwf hbusy
  rw [offer_frame hbusy (decodeEncodeAgree i hwf), offerCommand_idle hbusy]

/-- Settles O43: a stepped frame that does not put a block in flight raises the decoder's error or executes its command,
as the atomic frame does. -/
theorem steppedOtherwiseAtomic : Obligations.SteppedOtherwiseAtomic := by
  intro s t f rest hbusy hinbox hstep hidle
  rw [step_frame (s := { s with inbox := .frame f :: rest }) hbusy rfl]
  rw [step_stepped hbusy hinbox] at hstep
  change runFrame f (s.accept rest) = .next t
  cases hd : decode f with
  | error e => rw [runFrame_error hd, ← beginFrame_error hd, hstep]
  | ok i =>
    rw [runFrame_ok hd]
    rw [beginFrame_ok hd] at hstep
    rcases beginCommand_next hstep with hexec | ⟨d, b, -, -, rfl⟩
    · exact hexec
    · cases hidle

/-! ### Silence and resets (70_reset_and_hazards.md R141, R142, R152) -/

theorem step_nothing_offered {s : State} (hbusy : s.busy = false) (hinbox : s.inbox = []) : step s = .next s := by
  rw [step_idle hbusy, takeAction, hinbox]

/-- Settles O10: each step of the wait leads back to the state it began in. -/
theorem idleCoreWaits : Obligations.IdleCoreWaits := by
  intro s hbusy hinbox n
  induction n with
  | zero => rfl
  | succ n ih => rw [run_succ (step_nothing_offered hbusy hinbox), ih]

/-- Settles O11: in both forms of a reset the step is the reset event, which clears the flags and sends nothing. -/
theorem resetEventClears : Obligations.ResetEventClears := by
  intro s rest hreset
  have hstep : step s = .next (s.setInbox rest).resetEvent := by
    rcases hreset with hi | ⟨hbusy, f, held, hi⟩
    · exact step_reset hi
    · exact step_resetDuring hbusy hi
  exact ⟨_, hstep, rfl, rfl, rfl, rfl, rfl, rfl⟩

/-- Accepting a frame and raising its error writes no register (60_exceptions.md R126). -/
theorem accept_raise_sameRegisters (s : State) (rest : List HostAction) (e : CommandError) :
    SameRegisters s ((s.accept rest).raise e) :=
  ⟨⟨rfl, rfl, rfl, rfl, rfl⟩, rfl, rfl, rfl, rfl, rfl⟩

/-- Without a key none of ENC, DEC and RDSK is ready (60_exceptions.md R124). -/
theorem exec_notReady_of_no_key {i : Instr} {s : State} (hi : i = .rdsk ∨ (∃ b, i = .enc b) ∨ ∃ b, i = .dec b)
    (hkv : s.kv = false) : exec i s = .next (s.raise .notReady) := by
  rcases hi with rfl | ⟨b, rfl⟩ | ⟨b, rfl⟩
  · exact notReadyRaised.2 s hkv
  · exact (notReadyRaised.1 b s (.inl hkv)).1
  · exact (notReadyRaised.1 b s (.inl hkv)).2

/-- Settles O12: the reset leaves an idle core without a key and the frame next, and NotReady writes no register. -/
theorem afterResetNotReady : Obligations.AfterResetNotReady := by
  intro s f i rest hinbox hd hi
  let t := (s.setInbox (.frame f :: rest)).resetEvent
  have hreset : step s = .next t := step_reset hinbox
  have hframe : step t = .next ((t.accept rest).raise .notReady) :=
    calc step t
      _ = runFrame f (t.accept rest) := step_frame rfl rfl
      _ = exec i (t.accept rest) := runFrame_ok hd _
      _ = .next ((t.accept rest).raise .notReady) := exec_notReady_of_no_key hi rfl
  exact ⟨t, _, hreset, hframe, accept_raise_sameRegisters t rest .notReady, rfl, rfl⟩

/-! ### No key without an LDKEY (70_reset_and_hazards.md R144) -/

/-- No frame among these host actions decodes to LDKEY. -/
def NoLdkeyOffered (acts : List HostAction) : Prop :=
  ∀ f key, HostAction.frame f ∈ acts ∨ HostAction.stepped f ∈ acts → decode f ≠ .ok (.ldkey key)

theorem NoLdkeyOffered.of_suffix {acts acts' : List HostAction} (h : NoLdkeyOffered acts) (hs : acts' <:+ acts) :
    NoLdkeyOffered acts' :=
  fun f key hf => h f key (hf.imp hs.mem hs.mem)

theorem runFrame_inbox {f : List Byte} {s t : State} (h : runFrame f s = .next t) : t.inbox = s.inbox := by
  rcases runFrame_cases h with ⟨e, rfl⟩ | ⟨-, -, hinbox⟩
  · rfl
  · exact hinbox

theorem beginFrame_inbox {f : List Byte} {s t : State} (h : beginFrame f s = .next t) : t.inbox = s.inbox := by
  cases hd : decode f with
  | error e => cases h.symm.trans (beginFrame_error hd s); rfl
  | ok i =>
    rcases beginCommand_next (beginFrame_ok hd s ▸ h) with hexec | ⟨d, b, -, -, rfl⟩
    · exact (commandFrame i s t hexec).2.1
    · rfl

theorem advance_inbox {s t : State} (h : advance s = .next t) : t.inbox = s.inbox := by
  rcases advance_next h with ⟨lr, -, -, -, -, rfl⟩ | ⟨-, rfl⟩ <;> rfl

/-- A step takes the next host action or none (20_memory.md R40, R42). -/
theorem step_inbox_suffix {s t : State} (h : step s = .next t) : t.inbox <:+ s.inbox := by
  rcases step_cases h with ⟨rest, hi, rfl⟩ | ⟨-, -, hadv⟩ | ⟨-, -, rfl⟩ | ⟨f, rest, -, hi, hrun⟩ | ⟨f, rest, -, hi, hrun⟩
  · rcases hi with hi | ⟨-, f, held, hi⟩
    · exact hi ▸ List.suffix_cons _ rest
    · exact hi ▸ List.suffix_cons _ rest
  · exact (advance_inbox hadv).symm ▸ List.suffix_rfl
  · exact List.suffix_rfl
  · rw [runFrame_inbox hrun, hi]
    exact List.suffix_cons _ rest
  · rw [beginFrame_inbox hrun, hi]
    exact List.suffix_cons _ rest

/-- Only a frame of LDKEY sets `KV`, so a step without one leaves it clear. -/
theorem step_keeps_kv_clear {s t : State} (hkv : s.kv = false) (hno : NoLdkeyOffered s.inbox)
    (h : step s = .next t) : t.kv = false := by
  rcases step_flags h with ⟨hclear, -, -⟩ | ⟨f, rest, hi, hset⟩ | ⟨hsame, -⟩
  · exact hclear
  · have offered : HostAction.frame f ∈ s.inbox ∨ HostAction.stepped f ∈ s.inbox := by
      rcases hi with hi | hi <;> simp [hi]
    by_contra hne
    obtain ⟨-, key, hd, -⟩ := hset.kv fun hsame => hne (hsame.trans hkv)
    exact hno f key offered hd
  · exact hsame.trans hkv

/-- Settles O49: that `KV` is clear and no LDKEY is offered is kept by every step. -/
theorem noKeyWithoutLdkey : Obligations.NoKeyWithoutLdkey := by
  intro n
  induction n with
  | zero =>
    intro s t hkv _ hrun
    obtain rfl : s = t := Host.Outcome.next.inj hrun
    exact hkv
  | succ n ih =>
    intro s t hkv (hno : NoLdkeyOffered s.inbox) hrun
    obtain ⟨u, hstep, hrun⟩ := run_succ_next hrun
    exact ih u t (step_keeps_kv_clear hkv hno hstep) (hno.of_suffix (step_inbox_suffix hstep)) hrun

end Sys2Proof.Machine
end

section
/-!
PROOFS. A command in flight, transition by transition: the start, each round, the response, and what none of them
touches (42_encrypt.md R88).
-/

namespace Sys2Proof.Machine

/-! ### The start -/

/-- Settles O40: a 64-bit block passes both checks, so it goes in flight. -/
theorem startTransition : Obligations.StartTransition := by
  intro s f rest b d hbusy hinbox hkv hsv hd
  have passed : blockError b.toNat (s.accept rest) = none := blockError_eq_none_iff.2 ⟨hkv, hsv, b.isLt⟩
  have block : BitVec.ofNat 64 b.toNat = b := by rw [BitVec.ofNat_toNat, BitVec.setWidth_eq]
  have begun : beginFrame f (s.accept rest) = startBlock d b.toNat (s.accept rest) := by
    cases d with
    | enc => exact beginFrame_ok hd _
    | dec => exact beginFrame_ok hd _
  rw [step_stepped hbusy hinbox, begun, startBlock_ok passed, block]
  rfl

/-! ### The rounds and the response -/

section InFlight

variable {s : State}

/-- On a configured core with a round left, the step is that round. -/
theorem Configured.step_round (hs : Configured s) (hbusy : s.busy = true) (hinbox : ∀ rest, s.inbox ≠ .reset :: rest)
    (hrnd : s.rnd.toNat < 32) :
    ∃ lr, mix s.sbox (s.l, s.r) (roundKey s.k s.mode s.rnd.toNat) = some lr ∧
      step s = .next (s.writeWorking s.mode lr (s.rnd + 1)) := by
  obtain ⟨lr, hlr⟩ := mix_some hs.cells (s.l, s.r) (roundKey s.k s.mode s.rnd.toNat)
  exact ⟨lr, hlr, (step_busy hbusy hinbox).trans (advance_round hs.kv hs.sv hrnd hlr)⟩

theorem step_finish (hbusy : s.busy = true) (hinbox : ∀ rest, s.inbox ≠ .reset :: rest) (hrnd : s.rnd.toNat = 32) :
    step s = .next (s.respond (.ok64 (merge (s.l, s.r)))) :=
  (step_busy hbusy hinbox).trans (advance_finish hrnd)

/-- The schedule is indexed by the low five bits of `RND` (42_encrypt.md R92). -/
theorem roundKey_rnd (ks : Vector Word 8) (d : Mode) (n : BitVec 6) :
    roundKey ks d n.toNat = ks[ksel d (n.setWidth 5)] := by
  rw [roundKey, BitVec.ofNat_toNat, Vector.get_eq_getElem, Fin.getElem_fin]

/-- Settles O41: on a configured core MIX has a value; with a flag clear the round is refused, the key being asked for
first. -/
theorem roundTransition : Obligations.RoundTransition := by
  intro s hbusy hinbox hrnd
  have refused (hflags : s.kv = false ∨ s.sv = false) :
      step s = .refused (if s.kv then .cellHoldsNoValue else .subkeyHoldsNoValue) :=
    (step_busy hbusy hinbox).trans (advance_refused hrnd hflags)
  refine ⟨fun hs => ?_, fun hkv => ?_, fun hkv hsv => ?_⟩
  · obtain ⟨lr, hlr, hstep⟩ := hs.step_round hbusy hinbox hrnd
    rw [roundKey_rnd] at hlr
    exact ⟨lr, hlr, hstep⟩
  · simpa [hkv] using refused (.inl hkv)
  · simpa [hkv] using refused (.inr hsv)

/-- Settles O14: a round writes the working registers alone, and the response `BUSY` and what was sent. -/
theorem inFlightHoldsTheRest : Obligations.InFlightHoldsTheRest := by
  intro s t hbusy hinbox hstep
  rw [step_busy hbusy hinbox] at hstep
  rcases advance_next hstep with ⟨lr, -, -, hrnd, -, rfl⟩ | ⟨hrnd, rfl⟩
  · exact ⟨rfl, ⟨rfl, rfl, rfl, rfl, rfl⟩, rfl, rfl, .inl ⟨hbusy, rfl, rnd_succ_toNat hrnd⟩⟩
  · exact ⟨rfl, ⟨rfl, rfl, rfl, rfl, rfl⟩, rfl, rfl, .inr ⟨rfl, BitVec.eq_of_toNat_eq hrnd, rfl⟩⟩

/-! ### The whole of what is left of a command -/

/-- With `n` rounds left, `n + 1` steps do the rounds and respond: they write nothing but the working registers, `BUSY`
and the response. -/
theorem Configured.run_rest {n : Nat} (hs : Configured s) (hbusy : s.busy = true)
    (hinbox : ∀ rest, s.inbox ≠ .reset :: rest) (hn : s.rnd.toNat + n = 32) :
    ∃ p, core.run (n + 1) s = .next ((s.writeWorking s.mode p 32).respond (.ok64 (merge p))) := by
  induction n generalizing s with
  | zero =>
    have counted : s.rnd = 32 := BitVec.eq_of_toNat_eq hn
    have same : s = s.writeWorking s.mode (s.l, s.r) 32 := by rw [← counted]; rfl
    refine ⟨(s.l, s.r), (run_succ (step_finish hbusy hinbox hn) 0).trans ?_⟩
    rw [← same, run_zero]
  | succ n ih =>
    obtain ⟨lr, -, hstep⟩ := hs.step_round hbusy hinbox (by omega)
    have left : (s.rnd + 1).toNat + n = 32 := by rw [rnd_succ_toNat (by omega)]; omega
    obtain ⟨p, hp⟩ := ih (s := s.writeWorking s.mode lr (s.rnd + 1)) ⟨hs.kv, hs.sv, hs.cells⟩ hbusy hinbox left
    exact ⟨p, (run_succ hstep (n + 1)).trans hp⟩

end InFlight

/-- Settles O44: a legal core with a command in flight is configured, and has `32 - RND` rounds left and the response. -/
theorem inFlightCommandAnswers : Obligations.InFlightCommandAnswers := by
  intro s hs hbusy hinbox
  have bound : s.rnd.toNat ≤ 32 := hs.rounds
  obtain ⟨p, hp⟩ := (hs.configured hbusy).run_rest hbusy hinbox (n := 32 - s.rnd.toNat) (by omega)
  rw [← Nat.sub_add_comm bound] at hp
  exact ⟨_, merge p, hp, rfl, rfl, rfl, ⟨rfl, rfl, rfl, rfl, rfl⟩, rfl⟩

/-! ### What the result depends on (42_encrypt.md R84; 43_decrypt.md R100) -/

theorem blockError_congr {s s' : State} (hkv : s'.kv = s.kv) (hsv : s'.sv = s.sv) (b : Nat) :
    blockError b s' = blockError b s := by
  rw [blockError, blockError, State.cipherReady, State.cipherReady, hkv, hsv]

/-- The checks and the rounds read the flags, the subkeys and the table of a state, and nothing else of it. -/
theorem cipherBlock_response_congr {d : Mode} {b : Nat} {s s' t : State} (hk : s'.k = s.k) (hsbox : s'.sbox = s.sbox)
    (hkv : s'.kv = s.kv) (hsv : s'.sv = s.sv) (h : cipherBlock d b s = .next t) :
    ∃ t' r, cipherBlock d b s' = .next t' ∧ t.sent = s.sent ++ [r] ∧ t'.sent = s'.sent ++ [r] := by
  rcases cipherBlock_next h with ⟨e, he, rfl⟩ | ⟨lr, hpassed, hlr, rfl⟩
  · rw [← blockError_congr hkv hsv] at he
    exact ⟨_, _, cipherBlock_raise he, rfl, rfl⟩
  · rw [← blockError_congr hkv hsv] at hpassed
    rw [← hk, ← hsbox] at hlr
    exact ⟨_, _, cipherBlock_ok hpassed hlr, rfl, rfl⟩

/-- Settles O38: ENC and DEC are one transition in two modes. -/
theorem resultDependsOnConfigAlone : Obligations.ResultDependsOnConfigAlone := by
  intro i s s' t hi hk hsbox hkv hsv h
  rcases hi with ⟨b, rfl⟩ | ⟨b, rfl⟩
  · exact cipherBlock_response_congr hk hsbox hkv hsv h
  · exact cipherBlock_response_congr hk hsbox hkv hsv h

end Sys2Proof.Machine
end

section
/-!
PROOFS. Reading the key back: the data of RDSK as bytes of the key, and RDSK after LDKEY (40_key_schedule.md R68).
-/

namespace Sys2Proof

/-! ### Little-endian bytes in blocks -/

theorem leBytes_add (m n v : Nat) : leBytes (m + n) v = leBytes m v ++ leBytes n (v / 256 ^ m) := by
  induction m generalizing v with
  | zero => simp [leBytes]
  | succ m ih => rw [Nat.succ_add, leBytes, ih, leBytes, List.cons_append, Nat.div_div_eq_div_mul, ← pow_succ']

/-- The bytes of `n` words of `m` bytes each, word by word. -/
theorem leBytes_mul (m n v : Nat) :
    leBytes (m * n) v = (List.range n).flatMap fun i => leBytes m (v / 256 ^ (m * i)) := by
  induction n with
  | zero => rfl
  | succ n ih => simp [Nat.mul_succ, leBytes_add, ih, List.range_succ]

/-- `n` bytes hold nothing of a value above `256 ^ n`. -/
theorem leBytes_mod (n v : Nat) : leBytes n (v % 256 ^ n) = leBytes n v := by
  simpa [leValue_leBytes] using leBytes_leValue (leBytes n v)

end Sys2Proof

namespace Sys2Proof.Machine

/-! ### The data of RDSK -/

theorem derive_toList (key : Key) :
    (derive key).toList = (List.range 8).map fun i => key.extractLsb' (32 * i) 32 :=
  List.ext_getElem (by simp) (by simp)

/-- The bytes of subkey `i` are bytes `4i` to `4i + 3` of the key. -/
theorem leBytes_subkey (key : Key) (i : Nat) :
    leBytes 4 (key.extractLsb' (32 * i) 32).toNat = leBytes 4 (key.toNat / 256 ^ (4 * i)) := by
  have bits : 2 ^ (32 * i) = 256 ^ (4 * i) := by rw [pow_mul, pow_mul]; norm_num
  rw [BitVec.extractLsb'_toNat, Nat.shiftRight_eq_div_pow, bits]
  exact leBytes_mod 4 _

/-- The subkeys of a key, in the order RDSK sends them, are the bytes of the key, least significant first. -/
theorem responseFrame_derive (key : Key) : responseFrame (.ok8x32 (derive key)) = 0x00 :: leBytes 32 key.toNat := by
  have words : (derive key).toList.flatMap (fun w => leBytes 4 w.toNat) = leBytes 32 key.toNat := by
    simp only [derive_toList, List.flatMap_map, leBytes_subkey]
    exact (leBytes_mul 4 8 key.toNat).symm
  rw [responseFrame, words]

theorem execRdsk_of_kv {s : State} (hkv : s.kv = true) : execRdsk s = .next (s.respond (.ok8x32 s.k)) := by
  rw [execRdsk, State.keyReady, if_pos hkv]

/-- Settles O19: with `KV` set, RDSK only responds. -/
theorem rdskReadsTheSubkeys : Obligations.RdskReadsTheSubkeys :=
  fun _ hkv => execRdsk_of_kv hkv

/-- Settles O26: in a legal state the subkeys are those of `KEY`. -/
theorem rdskDataIsTheKey : Obligations.RdskDataIsTheKey := by
  intro s hs hkv
  refine ⟨_, execRdsk_of_kv hkv, ?_⟩
  rw [State.respond_sent, hs.subkeys hkv, responseFrame_derive]

/-! ### RDSK after LDKEY -/

/-- The value bytes of the canonical LDKEY frame of a 256-bit key (30_encoding.md R59). -/
theorem encode_ldkey_drop {key : Nat} (h : key < 2 ^ 256) : (encode (.ldkey key)).drop 2 = leBytes 32 key := by
  have nominal : intLength 32 key = 32 := if_pos h
  rw [encode, encodeInteger, nominal]
  rfl

/-- Settles O27: LDKEY leaves the subkeys of the key that RDSK sends. -/
theorem keyReadBack : Obligations.KeyReadBack := by
  intro key s h
  have key_toNat : (BitVec.ofNat 256 key).toNat = key := Nat.mod_eq_of_lt h
  refine ⟨_, _, execLdkey_of_lt h s, execRdsk_of_kv rfl, ?_⟩
  rw [encode_ldkey_drop h, ← key_toNat, BitVec.ofNat_toNat, BitVec.setWidth_eq, ← responseFrame_derive]
  rfl

end Sys2Proof.Machine
end

section
/-!
PROOFS. NEW: a reset and two loads, the second of them only if the first succeeds
(44_table_load_and_construction.md R117).
-/

namespace Sys2Proof.Machine

theorem lastOk_respond (r : Response) (s : State) :
    lastOk (s.respond r) = ((responseFrame r).head? == some 0x00) := by
  unfold lastOk
  rw [State.respond_sent, List.getLast?_concat]
  cases responseFrame r <;> rfl

/-- An idle core after a load that failed is left as it is: NEW does not offer the table. -/
theorem constructTable_raise (tbl : List (List Nat)) (s : State) (e : CommandError) :
    constructTable tbl (.next (s.raise e)) = .next (s.raise e) := by
  have failed : lastOk (s.raise e) = false := by
    rw [State.raise, lastOk_respond]
    cases e <;> rfl
  simp [constructTable, failed]

/-- After an OK the table is offered to the idle core. -/
theorem constructTable_ok (tbl : List (List Nat)) (s : State) :
    constructTable tbl (.next (s.respond .ok)) = exec (.ldsbox tbl) ((s.respond .ok).accept s.inbox) := by
  have succeeded : lastOk (s.respond .ok) = true := lastOk_respond .ok s
  rw [constructTable, if_pos succeeded, offerCommand_idle rfl]
  rfl

/-- The core that NEW has reset, with LDKEY accepted and everything else still offered. -/
def newBegun (s : State) : State := (s.resetEvent).accept s.inbox

theorem construct_eq (key : Nat) (tbl : List (List Nat)) (s : State) :
    construct key tbl s = constructTable tbl (exec (.ldkey key) (newBegun s)) := by
  have hkey : offerCommand (.ldkey key) (s.setInbox s.inbox).resetEvent = exec (.ldkey key) (newBegun s) :=
    offerCommand_idle rfl _
  rw [construct, offer_reset, constructKey, hkey]

/-- The core that NEW has loaded with a key, with LDSBOX accepted. -/
def newKeyed (key : Nat) (s : State) : State :=
  ((((newBegun s).writeKey (BitVec.ofNat 256 key) (derive (BitVec.ofNat 256 key))).setKV).respond .ok).accept s.inbox

/-- The response to the table comes after the OK to the key. -/
theorem newKeyed_sent_append (key : Nat) (s : State) (f : List Byte) :
    (newKeyed key s).sent ++ [f] = s.sent ++ [[0x00], f] :=
  List.append_assoc s.sent [[0x00]] [f]

theorem construct_overwide {key : Nat} (h : 2 ^ 256 ≤ key) (tbl : List (List Nat)) (s : State) :
    construct key tbl s = .next ((newBegun s).raise .rangeError) := by
  have hexec : exec (.ldkey key) (newBegun s) = .next ((newBegun s).raise .rangeError) :=
    rangeErrorRaised.2.2 key _ (by omega)
  rw [construct_eq, hexec, constructTable_raise]

theorem construct_of_lt {key : Nat} (h : key < 2 ^ 256) (tbl : List (List Nat)) (s : State) :
    construct key tbl s = execLdsbox tbl (newKeyed key s) := by
  rw [construct_eq, exec, execLdkey_of_lt h, constructTable_ok]
  rfl

/-- Settles O50: the reset clears both flags; an over-wide key ends NEW there, and otherwise `KV` is set and the checks of
LDSBOX decide. -/
theorem newConstructsOrNotReady : Obligations.NewConstructsOrNotReady := by
  intro key tbl s
  split_ifs with hkey hshape hrange
  · exact ⟨_, construct_overwide hkey tbl s, rfl, rfl, rfl, rfl⟩
  all_goals rw [construct_of_lt (not_le.1 hkey)]
  · have shape : commandError (.ldsbox tbl) (newKeyed key s) = some .shapeError := by simp [commandError, hshape]
    exact ⟨_, exec_raise shape, rfl, newKeyed_sent_append key s _, rfl, rfl⟩
  · have range : commandError (.ldsbox tbl) (newKeyed key s) = some .rangeError := by
      simp [commandError, hshape, hrange]
    exact ⟨_, exec_raise range, rfl, newKeyed_sent_append key s _, rfl, rfl⟩
  · have loaded := execLdsbox_of_checks (by simpa using hshape) (by simpa using hrange) (newKeyed key s)
    generalize storeTable tbl (newKeyed key s).sbox = m at loaded
    exact ⟨_, loaded, rfl, newKeyed_sent_append key s _, rfl, rfl⟩

end Sys2Proof.Machine
end
